-- ==== Sys2Proof/Word.lean ====
section
/-! DEFINITION. Sys2Proof/Word.lean: the byte, the only unit the block ever moves (R13, R62). -/

namespace Sys2Proof

/-- A byte, 8 bits, bit 7 the most significant (R13). -/
abbrev Byte := BitVec 8

end Sys2Proof
end

