-- ==== Sys2Proof/Syntax.lean ====
section
/-! DEFINITION. Sys2Proof/Syntax.lean: the chunk types and the instructions, one constructor per row of
spec/opcode_table.json. A chunk is one instruction (R80, 41_chunk_instructions.md). -/

namespace Sys2Proof

/-- The type of a chunk (R23). The source's names are TwoByteRun, ThreeByteRun and Plain. -/
inductive CType where
  | run2
  | run3
  | plain
deriving DecidableEq, Repr, Inhabited

/-- A chunk header, its operands assembled (R82 to R87, R100).
`lit size`: Plain, whose `size` payload bytes follow the header in the stream; the parser does not read them (R103).
`run2 size off`: TwoByteRun. `run3 size off`: ThreeByteRun. -/
inductive Instr where
  | run2 (size off : Nat)
  | run3 (size off : Nat)
  | lit (size : Nat)
deriving DecidableEq, Repr

/-- The type of an instruction's chunk. -/
def Instr.ctype : Instr → CType
  | .run2 _ _ => .run2
  | .run3 _ _ => .run3
  | .lit _ => .plain

/-- How many output bytes the chunk stands for (R85 to R87). -/
def Instr.size : Instr → Nat
  | .run2 size _ => size
  | .run3 size _ => size
  | .lit size => size

/-- The length of the header in bytes (R80). -/
def Instr.headerLength : Instr → Nat
  | .run2 _ _ => 2
  | .run3 _ _ => 3
  | .lit _ => 1

/-- The number of payload bytes that follow the header (R82 to R84). -/
def Instr.payloadLength : Instr → Nat
  | .run2 _ _ => 0
  | .run3 _ _ => 0
  | .lit size => size

/-- One line of the chunk notation (R93): a header and, for `LIT v0, v1, ...`, the payload bytes it names. -/
structure ChunkLine where
  instr : Instr
  payload : List Byte
deriving DecidableEq, Repr

end Sys2Proof
end

