-- ==== Sys2Proof/Config.lean ====
section
/-! DEFINITION. Sys2Proof/Config.lean: the fixed parameters (R11, R12) and the FREE VALUES, one for each value the spec
leaves unspecified. A free value has no body: no proof can see it, so a claim holds whatever it is. It is applied to
the counter `tick` of State, which advances whenever the spec lets values become unspecified (log 6, 7). -/

namespace Sys2Proof

/-- WINDOW_SIZE (R11, R12): 65536 bytes exactly. -/
def Config.windowSize : Nat := 65536

/-- The longest chunk in bytes: a Plain header and 128 payload bytes (R82, R85). -/
def Config.longestChunk : Nat := 129

/-- Free value: `ctype` after CREATE, after an error and after DROP (R36, R191). -/
opaque Config.freeCtype : Nat → CType

/-- Free value: `csize` after CREATE, after an error and after DROP (R36, R191). -/
opaque Config.freeCsize : Nat → BitVec 8

/-- Free value: `coff` after CREATE, after an error and after DROP (R36, R191). -/
opaque Config.freeCoff : Nat → BitVec 16

/-- Free value: `wp` after an error and after DROP (R191). -/
opaque Config.freeWp : Nat → BitVec 16

/-- Free value: `hist` after an error and after DROP (R191), within its legal range 0..65536 (R20, R29). -/
opaque Config.freeHist : Nat → Fin 65537

/-- Free value: `in_pos` after an error and after DROP (R191; 93_implementation_defined.md U4). -/
opaque Config.freeInPos : Nat → Nat

/-- Free value: `out_count` after an error and after DROP (95_test_vectors.md, program P3). -/
opaque Config.freeOutCount : Nat → Nat

/-- Free value: the code of `fsm` after DROP (R221: no state persists). -/
opaque Config.freeFsm : Nat → BitVec 2

/-- Free value: the byte of `WIN` at a physical index that no WinPush has written since CREATE (R27), for each epoch
`tick` and index. -/
opaque Config.unwrittenWin : Nat → Nat → Byte

end Sys2Proof
end

