-- ==== Sys2Proof/WellFormed.lean ====
section
/-! DEFINITION. Sys2Proof/WellFormed.lean: the operand ranges of the three chunk types (R11, R85 to R87); a notation with
an operand out of range has no encoding (R93). -/

namespace Sys2Proof

/-- The operand ranges: LIT size 1..128; RUN2 size 3..18, offset 0..1023; RUN3 size 4..67, offset 0..65535. -/
def Instr.wellFormed : Instr → Bool
  | .run2 size off => decide (3 ≤ size) && decide (size ≤ 18) && decide (off ≤ 1023)
  | .run3 size off => decide (4 ≤ size) && decide (size ≤ 67) && decide (off ≤ 65535)
  | .lit size => decide (1 ≤ size) && decide (size ≤ 128)

/-- A line of the notation names exactly the payload bytes its header announces (R82, R93). -/
def ChunkLine.wellFormed (l : ChunkLine) : Bool :=
  l.instr.wellFormed && decide (l.payload.length = l.instr.payloadLength)

end Sys2Proof
end

