-- ==== Sys2Proof/Decode.lean ====
section
/-! DEFINITION. Sys2Proof/Decode.lean: the header decoder (30_encoding.md), then the encoder, the chunk notation (R93) and
the opcode table's numbering of bits. -/

namespace Sys2Proof

/-- Why the bytes given do not hold a whole header. No header byte is reserved or illegal (R88), so these are all. -/
inductive DecodeReject where
  | noHeader    -- no byte at all: the clean end of the stream (R102)
  | truncated   -- header byte 0 is there and a later header byte is missing (R104, R105)
deriving DecidableEq, Repr

/-- The decoder's answer: an instruction and the bytes after its header, or a rejection by name. -/
inductive Decoded where
  | ok (i : Instr) (rest : List Byte)
  | reject (why : DecodeReject)
deriving DecidableEq, Repr

/-- R81: bit 7 set is Plain; else bit 6 set is ThreeByteRun; else TwoByteRun. -/
def headerType (b0 : Byte) : CType :=
  if b0.getLsbD 7 then .plain else if b0.getLsbD 6 then .run3 else .run2

/-- R85: `b0[6:0] + 1`. -/
def plainSize (b0 : Byte) : Nat := (b0.extractLsb' 0 7).toNat + 1

/-- R86: `b0[5:2] + 3`. -/
def run2Size (b0 : Byte) : Nat := (b0.extractLsb' 2 4).toNat + 3

/-- R86: `{b0[1:0], b1[7:0]}`. -/
def run2Offset (b0 b1 : Byte) : Nat := (b0.extractLsb' 0 2 ++ b1).toNat

/-- R87: `b0[5:0] + 4`. -/
def run3Size (b0 : Byte) : Nat := (b0.extractLsb' 0 6).toNat + 4

/-- R87: `{b1[7:0], b2[7:0]}`, big-endian. -/
def run3Offset (b1 b2 : Byte) : Nat := (b1 ++ b2).toNat

/-- The header at the start of a byte sequence, total on any bytes (R101, R108). -/
def decode : List Byte → Decoded
  | [] => .reject .noHeader
  | b0 :: bs =>
    match headerType b0, bs with
    | .plain, rest => .ok (.lit (plainSize b0)) rest
    | .run3, b1 :: b2 :: rest => .ok (.run3 (run3Size b0) (run3Offset b1 b2)) rest
    | .run2, b1 :: rest => .ok (.run2 (run2Size b0) (run2Offset b0 b1)) rest
    | .run3, _ => .reject .truncated
    | .run2, _ => .reject .truncated

/-- The header bytes of an instruction (R93's formulas). -/
def encode : Instr → List Byte
  | .lit size => [BitVec.ofNat 8 (0x80 ||| (size - 1))]
  | .run2 size off => [BitVec.ofNat 8 (((size - 3) <<< 2) ||| (off >>> 8)), BitVec.ofNat 8 (off &&& 0xFF)]
  | .run3 size off => [BitVec.ofNat 8 (0x40 ||| (size - 4)), BitVec.ofNat 8 (off >>> 8), BitVec.ofNat 8 (off &&& 0xFF)]

/-- One line of the notation as stream bytes: the header, then the payload (R82, R93). -/
def encodeLine (l : ChunkLine) : List Byte := encode l.instr ++ l.payload

/-- A stream, one chunk after another with no padding or separator (R80, R93). -/
def encodeStream (ls : List ChunkLine) : List Byte := ls.flatMap encodeLine

/-- The bytes of a table word: bit 0 is the least significant bit of the first byte, each later byte counts on from it;
bits above `nbits` are 0, up to the longest chunk (log 20). -/
def tableBytes (nbits w : Nat) : List Byte :=
  (List.range ((nbits + 7) / 8)).map (fun k => BitVec.ofNat 8 ((w % 2 ^ nbits) >>> (8 * k)))
    ++ List.replicate (Config.longestChunk - (nbits + 7) / 8) 0#8

/-- What the decoder reads from a word numbered as spec/opcode_table.json numbers it. -/
def decodeTableWord (nbits w : Nat) : Option Instr :=
  match decode (tableBytes nbits w) with
  | .ok i _ => some i
  | .reject _ => none

end Sys2Proof
end

