-- ==== Sys2Proof/Machine/State.lean ====
section
/-! DEFINITION. Sys2Proof/Machine/State.lean: everything the spec gives the machine (R20), and beside it what the
transaction interface needs (R32, D1): the host's pending commands, the request in progress, the host's output memory
and the responses. Plain data. -/

namespace Sys2Proof.Machine

/-- A sparse byte memory: (address, byte) pairs with strictly rising addresses; an unlisted address holds no value
that the spec gives (log 10, 11). -/
abbrev Memory := List Host.Cell

/-- The canonical form: addresses strictly rising. An unlisted address reads as no value, so no entry can equal it. -/
abbrev Memory.wf (m : Memory) : Prop := m.Pairwise (fun a b => a.1 < b.1)

/-- The decoder state register `fsm` (R21). -/
inductive Fsm where
  | noChunk
  | active
  | eof
  | poisoned
deriving DecidableEq, Repr

/-- What the byte source answers after its last byte (D2): the clean end of the stream, a mid-read failure, or nothing. -/
inductive Terminator where
  | eos
  | fault
  | never
deriving DecidableEq, Repr

/-- A byte source (R56, D2): a finite byte sequence and a terminator. -/
structure Source where
  bytes : List Byte
  term : Terminator
deriving DecidableEq, Repr

/-- The source of a block that has been dropped: none is bound, nothing ever answers (log 5). -/
def Source.unbound : Source := { bytes := [], term := .never }

/-- The operand of a PRODUCE (R140): the buffer's length, and where the host's buffer starts in the host's output
memory (log 11). -/
structure Request where
  len : Nat
  base : Nat
deriving DecidableEq, Repr

/-- What the host may ask (R10, R95, R157). `fill` is the host-side wrapper (R170); `filled` is its own progress. -/
inductive Command where
  | create (src : Source)
  | produce (r : Request)
  | drop
  | fill (r : Request) (filled : Nat)
deriving DecidableEq, Repr

/-- The error kinds (R180). The core raises the first three; `bufferTooSmall` is FILL's alone (R184). -/
inductive ErrorKind where
  | truncatedInput
  | invalidOffset
  | sourceFault
  | bufferTooSmall
deriving DecidableEq, Repr

/-- The response to a PRODUCE (R32): (OK, n), or an error kind. -/
inductive Response where
  | ok (n : Nat)
  | error (e : ErrorKind)
deriving DecidableEq, Repr

/-- The response of FILL (R170): OK, or an error kind. -/
inductive FillResponse where
  | ok
  | error (e : ErrorKind)
deriving DecidableEq, Repr

/-- The faults of the model. -/
inductive Fault where
  /-- R186: a PRODUCE in POISONED, raised by `produce`. Safe: the spec gives such a PRODUCE no result, and no claim can
  use one. -/
  | poisonedAccess
deriving DecidableEq, Repr

/-- The refusals of the model: what the spec gives no meaning. -/
inductive Refusal where
  /-- An instruction without a meaning yet, raised by an arm of `exec`. Safe. No arm raises it. -/
  | notModelled (mnemonic : String)
  /-- R221, U13: a command other than CREATE after DROP, raised by `step`. Safe: nothing can be claimed. -/
  | noInstance
  /-- R198, U9: a command other than DROP while a PRODUCE is waiting for the source, raised by `step`. Unsafe for a host
  that breaks its duty, as the spec's U9 says. -/
  | overlappingCommand
deriving DecidableEq, Repr

/-- The state. From `fsm` to `outCount` it is R20's table; the rest is the interface. -/
structure State where
  /-- The decoder state (R21). -/
  fsm : Fsm
  /-- The type of the active chunk (R23). -/
  ctype : CType
  /-- The bytes the active chunk still owes (R24). -/
  csize : BitVec 8
  /-- The back-distance of the active run chunk (R25). -/
  coff : BitVec 16
  /-- The window's bytes by physical index 0..65535 (R27). -/
  win : Memory
  /-- The physical index of the next push (R28). -/
  wp : BitVec 16
  /-- The number of history bytes held, 0..65536 (R29). -/
  hist : BitVec 17
  /-- The byte source bound by CREATE (R35). -/
  src : Source
  /-- The cursor: bytes consumed from the source (R22). -/
  inPos : Nat
  /-- Bytes produced since CREATE (R30). -/
  outCount : Nat
  /-- Whether an instance exists: CREATE makes one, DROP releases it (R220, R221). -/
  live : Bool
  /-- Whether a PRODUCE is waiting for an unanswered pull, the block's one wait state (R58, R200). -/
  busy : Bool
  /-- The operand of the PRODUCE in progress, or of the last one (R140). -/
  req : Request
  /-- The host's output memory, of which each PRODUCE's BUF is a slice (R50, R60). -/
  buf : Memory
  /-- The response of the last command to the block; none for CREATE, DROP and a waiting PRODUCE (R32). -/
  resp : Option Response
  /-- The response of the last FILL (R170). -/
  fillResp : Option FillResponse
  /-- The commands the host has issued and the block has not taken, oldest first (R63, R198). -/
  cmds : List Command
  /-- The model's own counter for free values (log 6). -/
  tick : Nat
deriving DecidableEq, Repr

/-- The block right after CREATE (R36) with a source that ends at once, no command pending. The chunk registers, for
which the spec gives no value, hold zero (log 8), and the source is the model's choice (log 9). -/
def State.reset : State where
  fsm := .noChunk
  ctype := .run2
  csize := 0#8
  coff := 0#16
  win := []
  wp := 0#16
  hist := 0#17
  src := { bytes := [], term := .eos }
  inPos := 0
  outCount := 0
  live := true
  busy := false
  req := { len := 0, base := 0 }
  buf := []
  resp := none
  fillResp := none
  cmds := []
  tick := 0

end Sys2Proof.Machine
end

