-- ==== Sys2Proof/Machine/Flags.lean ====
section
/-! DEFINITION. Sys2Proof/Machine/Flags.lean: the block has no condition codes (R32); its status is the response of a
command. Here are the response, and the numeric labels of D6. -/

namespace Sys2Proof.Machine

/-- Deliver a response (R141 step 5, R190 step 3). -/
def respond (r : Response) (s : State) : State := { s with resp := some r }

/-- The code of `fsm` (R21). -/
def fsmCode : Fsm → BitVec 2
  | .noChunk => 0
  | .active => 1
  | .eof => 2
  | .poisoned => 3

/-- The state a 2-bit code of `fsm` stands for (R21). -/
def fsmOfCode (c : BitVec 2) : Fsm :=
  if c = 0 then .noChunk else if c = 1 then .active else if c = 2 then .eof else .poisoned

/-- The code of `ctype` (R23). -/
def ctypeCode : CType → BitVec 2
  | .run2 => 0b00
  | .run3 => 0b01
  | .plain => 0b10

/-- The code of an error kind (R180). -/
def errorCode : ErrorKind → Nat
  | .truncatedInput => 1
  | .invalidOffset => 2
  | .sourceFault => 3
  | .bufferTooSmall => 4

/-- The status code of a response: OK is 0 (R180). -/
def statusCode : Response → Nat
  | .ok _ => 0
  | .error e => errorCode e

end Sys2Proof.Machine
end

