-- ==== Sys2Proof/Machine/Ops.lean ====
section
/-! DEFINITION. Sys2Proof/Machine/Ops.lean: the primitives over the three storage spaces (20_memory.md), error entry
(R190, R191) and the two commands that make and release an instance (R220, R221). -/

namespace Sys2Proof.Machine

/-- The byte listed at an address, if any. -/
def Memory.read : Memory → Nat → Option Byte
  | [], _ => none
  | c :: m, a => if c.1 = a then some c.2 else Memory.read m a

/-- Store a byte, keeping the addresses rising. -/
def Memory.write : Memory → Nat → Byte → Memory
  | [], a, v => [(a, v)]
  | c :: m, a, v =>
    if a < c.1 then (a, v) :: c :: m
    else if a = c.1 then (a, v) :: m
    else c :: Memory.write m a v

/-- Make `n` bytes from `base` unspecified. -/
def Memory.forget (m : Memory) (base n : Nat) : Memory :=
  m.filter (fun c => decide (c.1 < base) || decide (base + n ≤ c.1))

/-- The answer to a pull (R56), or that there is none (R58). -/
inductive Answer where
  | byte (v : Byte)
  | eos
  | fault
  | unanswered
deriving DecidableEq, Repr

/-- How a part of a command ends: with a result, with a raised error (R15), or waiting for the source (R58). -/
inductive Flow (α : Type) where
  | done (a : α) (s : State)
  | raised (e : ErrorKind) (s : State)
  | blocked (s : State)
deriving DecidableEq, Repr

/-- Go on after a part that is done; a raised error and a wait end the command there (R188). -/
def Flow.andThen {α β : Type} (x : Flow α) (k : α → State → Flow β) : Flow β :=
  match x with
  | .done a s => k a s
  | .raised e s => .raised e s
  | .blocked s => .blocked s

/-- SrcRead (R15, R56): the next byte, moving the cursor by 1, or the terminator's answer, moving nothing. -/
def srcRead (s : State) : Answer × State :=
  match s.src.bytes[s.inPos]? with
  | some v => (.byte v, { s with inPos := s.inPos + 1 })
  | none =>
    match s.src.term with
    | .eos => (.eos, s)
    | .fault => (.fault, s)
    | .never => (.unanswered, s)

/-- A pull inside a chunk: End is TRUNCATED_INPUT and Fault is SOURCE_FAULT (R101, R120, R181, R183). -/
def pull (s : State) : Flow Byte :=
  match srcRead s with
  | (.byte v, s') => .done v s'
  | (.eos, s') => .raised .truncatedInput s'
  | (.fault, s') => .raised .sourceFault s'
  | (.unanswered, s') => .blocked s'

/-- The physical index of back-distance `d`: `(wp - 1 - d) mod 65536` (R28, R53). -/
def winIndex (wp d : BitVec 16) : BitVec 16 := wp - 1#16 - d

/-- The byte of WIN at a physical index; a free value where none has been written since CREATE (R27). -/
def winByte (s : State) (i : Nat) : Byte := (s.win.read i).getD (Config.unwrittenWin s.tick i)

/-- WinGet (R53). -/
def winGet (d : BitVec 16) (s : State) : Option Byte :=
  if s.hist.toNat ≤ d.toNat then none else some (winByte s (winIndex s.wp d).toNat)

/-- WinPush (R54). -/
def winPush (v : Byte) (s : State) : State :=
  { s with
    win := s.win.write s.wp.toNat v
    wp := s.wp + 1#16
    hist := BitVec.ofNat 17 (min (s.hist.toNat + 1) Config.windowSize)
    outCount := s.outCount + 1 }

/-- Extending the window by a block, in output order (R55). -/
def winExtend : List Byte → State → State
  | [], s => s
  | v :: vs, s => winExtend vs (winPush v s)

/-- BufWrite (R60): index `i` of the buffer of the current PRODUCE. -/
def bufWrite (i : Nat) (v : Byte) (s : State) : State :=
  { s with buf := s.buf.write (s.req.base + i) v }

/-- The block's registers and window with every value unspecified (R191, R221): free values, WIN with nothing listed. -/
def unspecify (s : State) : State :=
  { s with
    ctype := Config.freeCtype s.tick
    csize := Config.freeCsize s.tick
    coff := Config.freeCoff s.tick
    win := []
    wp := Config.freeWp s.tick
    hist := BitVec.ofNat 17 (Config.freeHist s.tick).val
    inPos := Config.freeInPos s.tick
    outCount := Config.freeOutCount s.tick
    tick := s.tick + 1 }

/-- Error entry, the block's one exception (R190, R191): POISONED, the error as the response, nothing saved; the failing
call's buffer and every register but `fsm` unspecified. There is no return from an error (R192): only CREATE and DROP
leave POISONED. -/
def enterError (e : ErrorKind) (s : State) : State :=
  respond (.error e)
    { unspecify s with fsm := .poisoned, buf := s.buf.forget s.req.base s.req.len }

/-- CREATE (R220, R36): bind the source, empty the window, no response. The chunk registers and the window's contents
are unspecified. -/
def create (src : Source) (s : State) : State :=
  { unspecify s with
    fsm := .noChunk
    wp := 0#16
    hist := 0#17
    src := src
    inPos := 0
    outCount := 0
    live := true
    busy := false
    resp := none }

/-- DROP (R221): the instance, its window and its source are released and no state persists; no response. It is also
the one way to cancel a waiting PRODUCE (R200). DESIGN CHOICE (log 24, unsafe): the spec says nothing of what BUF holds
after such a cancellation; the host's memory is left as it stands, with the bytes the PRODUCE had written. -/
def drop (s : State) : State :=
  { unspecify s with
    fsm := fsmOfCode (Config.freeFsm s.tick)
    src := Source.unbound
    live := false
    busy := false
    resp := none }

/-- The waiting PRODUCE (R58, R200): it has not returned, and all state survives the wait. -/
def wait (s : State) : State := { s with busy := true }

end Sys2Proof.Machine
end

