-- ==== Sys2Proof/Machine/Operands.lean ====
section
/-! DEFINITION. Sys2Proof/Machine/Operands.lean: how a chunk's operands reach the registers (adoption, R144) and how many
bytes a call produces (R143). -/

namespace Sys2Proof.Machine

/-- Adopt a Plain chunk (R141 step 2, R144): `coff` is not written (R25). -/
def adoptPlain (size : Nat) (s : State) : State :=
  { s with ctype := .plain, csize := BitVec.ofNat 8 size, fsm := .active }

/-- Adopt a run chunk (R141 step 2, R144). -/
def adoptRun (t : CType) (size off : Nat) (s : State) : State :=
  { s with ctype := t, csize := BitVec.ofNat 8 size, coff := BitVec.ofNat 16 off, fsm := .active }

/-- The count of this call: `min(csize, len)` (R143). -/
def produceCount (s : State) : Nat := min s.csize.toNat s.req.len

/-- Steps 4 and 5 (R145, R146): owe `n` fewer bytes, discard a finished chunk, answer (OK, n). -/
def finishCall (n : Nat) (s : State) : State :=
  respond (.ok n)
    { s with
      csize := BitVec.ofNat 8 (s.csize.toNat - n)
      fsm := if s.csize.toNat - n = 0 then .noChunk else s.fsm }

/-- The end of a call whose production step is `x`: steps 4 and 5, error entry, or the wait. -/
def conclude (n : Nat) (x : Flow Unit) : Host.Outcome State Fault Refusal :=
  match x with
  | .done _ s => .next (finishCall n s)
  | .raised e s => .next (enterError e s)
  | .blocked s => .next (wait s)

end Sys2Proof.Machine
end

