-- ==== Sys2Proof/Machine/Lit.lean ====
section
/-! DEFINITION. Sys2Proof/Machine/Lit.lean: LIT, the Plain chunk (R120). -/

namespace Sys2Proof.Machine

/-- PlainStep's first loop (R120, R59): `n` payload bytes pulled in stream order, each written to BUF from index `i`
on; the bytes read are the result, the holding register `t`. -/
def readPayload : Nat → Nat → State → Flow (List Byte)
  | 0, _, s => .done [] s
  | n + 1, i, s =>
    (pull s).andThen fun v s1 =>
      (readPayload n (i + 1) (bufWrite i v s1)).andThen fun t s2 => .done (v :: t) s2

/-- PlainStep (R120): read the payload, then push it into the window. -/
def plainStep (n : Nat) (s : State) : Flow Unit :=
  (readPayload n 0 s).andThen fun t s1 => .done () (winExtend t s1)

/-- Steps 3 to 5 of a PRODUCE whose active chunk is Plain (R141, R148). -/
def continueLit (s : State) : Host.Outcome State Fault Refusal :=
  conclude (produceCount s) (plainStep (produceCount s) s)

/-- LIT (R120): its header has been parsed; adopt it and produce this call's bytes. -/
def execLit (size : Nat) (s : State) : Host.Outcome State Fault Refusal :=
  continueLit (adoptPlain size s)

end Sys2Proof.Machine
end

