-- ==== Sys2Proof/Machine/Run.lean ====
section
/-! DEFINITION. Sys2Proof/Machine/Run.lean: RUN2 and RUN3, the run chunks (R121 to R123). -/

namespace Sys2Proof.Machine

/-- RunStep (R121): `n` positions from index `i` on, each looked up at `coff`, written to BUF and pushed before the next
position's lookup. -/
def runStep : Nat → Nat → State → Flow Unit
  | 0, _, s => .done () s
  | n + 1, i, s =>
    match winGet s.coff s with
    | none => .raised .invalidOffset s
    | some v => runStep n (i + 1) (winPush v (bufWrite i v s))

/-- Steps 3 to 5 of a PRODUCE whose active chunk is a TwoByteRun (R141, R148). -/
def continueRun2 (s : State) : Host.Outcome State Fault Refusal :=
  conclude (produceCount s) (runStep (produceCount s) 0 s)

/-- Steps 3 to 5 of a PRODUCE whose active chunk is a ThreeByteRun (R141, R148). -/
def continueRun3 (s : State) : Host.Outcome State Fault Refusal :=
  conclude (produceCount s) (runStep (produceCount s) 0 s)

/-- RUN2 (R122): its header has been parsed; adopt it and produce this call's bytes. -/
def execRun2 (size off : Nat) (s : State) : Host.Outcome State Fault Refusal :=
  continueRun2 (adoptRun .run2 size off s)

/-- RUN3 (R123): its header has been parsed; adopt it and produce this call's bytes. -/
def execRun3 (size off : Nat) (s : State) : Host.Outcome State Fault Refusal :=
  continueRun3 (adoptRun .run3 size off s)

end Sys2Proof.Machine
end

