-- ==== Sys2Proof/Machine/Dispatch.lean ====
section
/-! DEFINITION. Sys2Proof/Machine/Dispatch.lean: one arm per instruction. -/

namespace Sys2Proof.Machine

/-- An instruction whose header has just been parsed, run for the PRODUCE in progress: R141 from the adoption on. -/
def exec (i : Instr) (s : State) : Host.Outcome State Fault Refusal :=
  match i with
  | .run2 size off => Sys2Proof.Machine.execRun2 size off s
  | .run3 size off => Sys2Proof.Machine.execRun3 size off s
  | .lit size => Sys2Proof.Machine.execLit size s

end Sys2Proof.Machine
end

