-- ==== Sys2Proof/Machine/Parser.lean ====
section
/-! DEFINITION. Sys2Proof/Machine/Parser.lean: the chunk parser (40_chunk_parser.md). -/

namespace Sys2Proof.Machine

/-- ParseNext (R100, R101): the next header from the source; none at the clean end of the stream. -/
def parseNext (s : State) : Flow (Option Instr) :=
  match srcRead s with
  | (.eos, s0) => .done none s0
  | (.fault, s0) => .raised .sourceFault s0
  | (.unanswered, s0) => .blocked s0
  | (.byte b0, s0) =>
    match headerType b0 with
    | .plain => .done (some (.lit (plainSize b0))) s0
    | .run3 =>
      (pull s0).andThen fun b1 s1 =>
        (pull s1).andThen fun b2 s2 => .done (some (.run3 (run3Size b0) (run3Offset b1 b2))) s2
    | .run2 =>
      (pull s0).andThen fun b1 s1 => .done (some (.run2 (run2Size b0) (run2Offset b0 b1))) s1

end Sys2Proof.Machine
end

