-- ==== Sys2Proof/Machine/Produce.lean ====
section
/-! DEFINITION. Sys2Proof/Machine/Produce.lean: the PRODUCE command (R141) and the host's FILL (R171). -/

namespace Sys2Proof.Machine

/-- Step 3 of a PRODUCE that finds a chunk active: the chunk goes on where it stopped (R148). -/
def continueChunk (s : State) : Host.Outcome State Fault Refusal :=
  match s.ctype with
  | .run2 => continueRun2 s
  | .run3 => continueRun3 s
  | .plain => continueLit s

/-- Step 2 of a PRODUCE that finds no chunk active (R144): parse the next header and run the chunk; at the clean end of
the stream enter EOF and answer (OK, 0). -/
def startChunk (s : State) : Host.Outcome State Fault Refusal :=
  match parseNext s with
  | .done none s1 => .next (respond (.ok 0) { s1 with fsm := .eof })
  | .done (some i) s1 => exec i s1
  | .raised e s1 => .next (enterError e s1)
  | .blocked s1 => .next (wait s1)

/-- The PRODUCE in progress has this operand and no response yet. -/
def beginProduce (r : Request) (s : State) : State := { s with req := r, resp := none }

/-- PRODUCE (R141). -/
def produce (r : Request) (s : State) : Host.Outcome State Fault Refusal :=
  match s.fsm with
  | .eof => .next (respond (.ok 0) (beginProduce r s))
  | .poisoned => .fault .poisonedAccess
  | .active => continueChunk (beginProduce r s)
  | .noChunk => startChunk (beginProduce r s)

/-- What FILL does with a PRODUCE that has ended (R171): an error is passed on, and FILL's buffer is unspecified (vector
F5); (OK, 0) is BUFFER_TOO_SMALL, and the unfilled tail is unspecified (R172, U14); a positive count goes round the loop
again. A PRODUCE that waits leaves FILL without a response. -/
def fillAfter (r : Request) (filled : Nat) (t : State) : State :=
  match t.resp with
  | some (.error e) => { t with fillResp := some (.error e), buf := t.buf.forget r.base r.len }
  | some (.ok 0) =>
    { t with
      fillResp := some (.error .bufferTooSmall)
      buf := t.buf.forget (r.base + filled) (r.len - filled) }
  | some (.ok (n + 1)) => { t with cmds := .fill r (filled + (n + 1)) :: t.cmds }
  | none => t

/-- One turn of FILL's loop (R171): one PRODUCE into the rest of the buffer, or OK when the buffer is full. -/
def fillTurn (r : Request) (filled : Nat) (s : State) : Host.Outcome State Fault Refusal :=
  if filled < r.len then
    match produce { len := r.len - filled, base := r.base + filled } { s with fillResp := none } with
    | .next t => .next (fillAfter r filled t)
    | .fault e => .fault e
    | .refused e => .refused e
  else .next { s with fillResp := some .ok }

/-- The host command at the head of the queue, already taken from it. A command that overlaps a waiting PRODUCE has no
step, save DROP (R198, R200); after DROP only CREATE has a meaning (R221). -/
def runCommand (c : Command) (s : State) : Host.Outcome State Fault Refusal :=
  match c with
  | .create src => if s.busy then .refused .overlappingCommand else .next (create src s)
  | .produce r =>
    if !s.live then .refused .noInstance else if s.busy then .refused .overlappingCommand else produce r s
  | .drop => if !s.live then .refused .noInstance else .next (drop s)
  | .fill r filled =>
    if !s.live then .refused .noInstance else if s.busy then .refused .overlappingCommand else fillTurn r filled s

end Sys2Proof.Machine
end

