-- ==== Sys2Proof/Machine/Step.lean ====
section
/-! DEFINITION. Sys2Proof/Machine/Step.lean: one step, which is one host command (R63, D1), and where the next
instruction is fetched from. -/

namespace Sys2Proof.Machine

/-- One step: the oldest pending command, run to its end. With no command pending nothing happens (log 1). -/
def step (s : State) : Host.Outcome State Fault Refusal :=
  match s.cmds with
  | [] => .next s
  | c :: rest => runCommand c { s with cmds := rest }

/-- `s` with the table word's bytes as what the source delivers next, and a PRODUCE that covers the longest chunk as the
next command, so that the next step fetches and runs exactly that instruction (log 9). -/
def State.withFetchWord (s : State) (nbits w : Nat) : State :=
  { s with
    src := { s.src with
      bytes := (s.src.bytes ++ List.replicate (s.inPos - s.src.bytes.length) 0#8).take s.inPos ++ tableBytes nbits w }
    fsm := .noChunk
    live := true
    busy := false
    cmds := .produce { len := 128, base := 0 } :: s.cmds }

end Sys2Proof.Machine
end

