-- ==== Sys2Proof/Machine/Host.lean ====
section
/-! DEFINITION. Sys2Proof/Machine/Host.lean: a host that keeps its duties (R157, R198): it issues one command, waits for
its response, and only then issues the next. For stating what a run delivers (R153, R156). -/

namespace Sys2Proof.Machine

/-- The host issues one command and nothing else is pending. -/
def State.issue (c : Command) (s : State) : State := { s with cmds := [c] }

/-- The bytes of the source that the block has not consumed. -/
def State.remaining (s : State) : List Byte := s.src.bytes.drop s.inPos

/-- The bytes a successful PRODUCE has delivered: `BUF[0..n-1]` (R32). -/
def delivered (t : State) : List (Option Byte) :=
  match t.resp with
  | some (.ok n) => (List.range n).map fun k => t.buf.read (t.req.base + k)
  | some (.error _) => []
  | none => []

/-- How a sequence of PRODUCE calls has ended: all answered OK; an error; a pull that is never answered; or the model's
own stop. -/
inductive ServeEnd where
  | running
  | failed (e : ErrorKind)
  | hung
  | stopped
deriving DecidableEq, Repr

/-- What a sequence of PRODUCE calls has delivered, how it ended, and the state it left. -/
structure ServeRecord where
  out : List (Option Byte)
  ended : ServeEnd
  final : State
deriving DecidableEq, Repr

/-- The host's PRODUCE calls, one after another, up to the first that does not answer OK (R153). -/
def serve : List Request → State → ServeRecord
  | [], s => { out := [], ended := .running, final := s }
  | r :: rs, s =>
    match step (s.issue (.produce r)) with
    | .next t =>
      match t.resp with
      | some (.ok _) =>
        { out := delivered t ++ (serve rs t).out, ended := (serve rs t).ended, final := (serve rs t).final }
      | some (.error e) => { out := [], ended := .failed e, final := t }
      | none => { out := [], ended := .hung, final := t }
    | .fault _ => { out := [], ended := .stopped, final := s }
    | .refused _ => { out := [], ended := .stopped, final := s }

end Sys2Proof.Machine
end

