-- ==== Sys2Proof/Machine/Reference.lean ====
section
/-! DEFINITION. Sys2Proof/Machine/Reference.lean: the reference decoding of a whole source (R152), a function of the
source alone, written without the machine's state. -/

namespace Sys2Proof.Machine

/-- How the reference decoding of a source ends (R152): EOF, an error, or a pull that is never answered. -/
inductive RefEnd where
  | eof
  | error (e : ErrorKind)
  | hang
deriving DecidableEq, Repr

/-- The outcome and the output sequence `O` of the reference decoding. -/
structure RefResult where
  ended : RefEnd
  out : List Byte
deriving DecidableEq, Repr

/-- One chunk of the reference decoding: the rest of the stream and the output so far, or the end. -/
inductive RefStep where
  | more (rest out : List Byte)
  | stop (r : RefResult)
deriving DecidableEq, Repr

/-- The terminator met at header byte 0: End is the clean end of the stream (R102). -/
def refEndAtHeader : Terminator → RefEnd
  | .eos => .eof
  | .fault => .error .sourceFault
  | .never => .hang

/-- The terminator met inside a chunk (R181, R183). -/
def refEndInside : Terminator → RefEnd
  | .eos => .error .truncatedInput
  | .fault => .error .sourceFault
  | .never => .hang

/-- A Plain chunk's payload: each byte read is output. -/
def refPlain (term : Terminator) : Nat → List Byte → List Byte → RefStep
  | 0, bs, o => .more bs o
  | _ + 1, [], o => .stop { ended := refEndInside term, out := o }
  | n + 1, b :: bs, o => refPlain term n bs (o ++ [b])

/-- A run chunk: each byte is `O[|O| - 1 - offset]`. -/
def refRun (off : Nat) : Nat → List Byte → List Byte → RefStep
  | 0, bs, o => .more bs o
  | n + 1, bs, o =>
    if off < o.length then refRun off n bs (o ++ [o.getD (o.length - 1 - off) 0#8])
    else .stop { ended := .error .invalidOffset, out := o }

/-- One chunk after its header. -/
def refChunk (term : Terminator) (i : Instr) (bs o : List Byte) : RefStep :=
  match i with
  | .lit size => refPlain term size bs o
  | .run2 size off => refRun off size bs o
  | .run3 size off => refRun off size bs o

/-- The loop of R152. Every chunk takes at least its header byte from the stream, so fuel beyond the stream's length is
never used up. -/
def refLoop (term : Terminator) : Nat → List Byte → List Byte → RefResult
  | 0, _, o => { ended := .hang, out := o }
  | fuel + 1, bs, o =>
    match decode bs with
    | .reject .noHeader => { ended := refEndAtHeader term, out := o }
    | .reject .truncated => { ended := refEndInside term, out := o }
    | .ok i rest =>
      match refChunk term i rest o with
      | .more rest' o' => refLoop term fuel rest' o'
      | .stop r => r

/-- DecodeRef (R152). -/
def decodeRef (src : Source) : RefResult := refLoop src.term (src.bytes.length + 1) src.bytes []

end Sys2Proof.Machine
end

