-- ==== Sys2Proof/Safety.lean ====
section
/-! DEFINITION. Sys2Proof/Safety.lean: the invariant of a run (R37) and the end of a run (R156). -/

namespace Sys2Proof.Machine

/-- The largest size a chunk of a type can have (R24). -/
def maxSize : CType → Nat
  | .run2 => 18
  | .run3 => 67
  | .plain => 128

/-- What holds in every run without an error (R37, R27, R29, R22). -/
structure RunInv (s : State) : Prop where
  /-- R37 (b). -/
  hist_eq : s.hist.toNat = min s.outCount Config.windowSize
  /-- R37 (c). -/
  wp_eq : s.wp.toNat = s.outCount % Config.windowSize
  /-- Exactly the bytes of the history have been written (R27, R29), so WIN never holds more than 65536 bytes (R73). -/
  win_written : ∀ i, (s.win.read i).isSome = true ↔ i < s.hist.toNat
  /-- R37 (a), R24. -/
  active_size : s.fsm = .active → 1 ≤ s.csize.toNat ∧ s.csize.toNat ≤ maxSize s.ctype
  /-- R25. -/
  active_offset : s.fsm = .active → s.ctype = .run2 → s.coff.toNat ≤ 1023
  /-- R37 (e). -/
  eof_ended : s.fsm = .eof → s.src.term = .eos ∧ s.src.bytes.length ≤ s.inPos
  /-- The cursor never passes the bytes the source delivers (R22, R56). -/
  cursor_le : s.inPos ≤ s.src.bytes.length

/-- The invariant of the whole machine: both memories are canonical, WIN has no index beyond 65535 (R27), and a live
block that no error has poisoned satisfies `RunInv`. -/
structure Inv (s : State) : Prop where
  win_wf : s.win.wf
  buf_wf : s.buf.wf
  win_bound : ∀ c ∈ s.win, c.1 < Config.windowSize
  run : s.live = true → s.fsm ≠ .poisoned → RunInv s

/-- R156 (1): the run is completed. -/
def State.completed (s : State) : Prop := s.live = true ∧ s.fsm = .eof

/-- R156 (2): the run has failed. -/
def State.failed (s : State) : Prop := s.live = true ∧ s.fsm = .poisoned

/-- R156 (3): a pull is unanswered, so the PRODUCE in progress has not returned. -/
def State.waiting (s : State) : Prop := s.live = true ∧ s.busy = true

/-- The window after a call that produced `out` (R54, R55, R127): the bytes are pushed in output order from `wp` on, every
other physical byte is as before. -/
structure Pushed (s t : State) (out : List Byte) : Prop where
  written : ∀ k (h : k < out.length), t.win.read ((s.wp.toNat + k) % Config.windowSize) = some out[k]
  untouched : ∀ i, (∀ k < out.length, i ≠ (s.wp.toNat + k) % Config.windowSize) → t.win.read i = s.win.read i
  wp_eq : t.wp.toNat = (s.wp.toNat + out.length) % Config.windowSize
  hist_eq : t.hist.toNat = if out.length = 0 then s.hist.toNat else min (s.hist.toNat + out.length) Config.windowSize
  outCount_eq : t.outCount = s.outCount + out.length

/-- The host's output memory after a call that delivered `out` (R60): `BUF[0..n-1]` hold the bytes, every other byte is as
before. -/
structure Written (s t : State) (out : List Byte) : Prop where
  bytes : ∀ k (h : k < out.length), t.buf.read (s.req.base + k) = some out[k]
  untouched : ∀ a, (a < s.req.base ∨ s.req.base + out.length ≤ a) → t.buf.read a = s.buf.read a

/-- What no PRODUCE writes: the source's binding (R35), the operand in progress, and the host's side. -/
structure SameInterface (s t : State) : Prop where
  src_eq : t.src = s.src
  live_eq : t.live = s.live
  req_eq : t.req = s.req
  fillResp_eq : t.fillResp = s.fillResp
  cmds_eq : t.cmds = s.cmds

/-- A call that answered (OK, n), of a chunk that owed `owed` bytes, and produced `out` (R143, R145, R146, R127): `t` is
the state after it. It says nothing of `ctype`, `coff` and the cursor. -/
structure CallDone (owed : Nat) (s t : State) (out : List Byte) : Prop where
  count : out.length = min owed s.req.len
  owes : t.csize.toNat = owed - out.length
  fsm_eq : t.fsm = if out.length = owed then .noChunk else .active
  resp_eq : t.resp = some (.ok out.length)
  window : Pushed s t out
  buffer : Written s t out
  interface : SameInterface s t
  busy_eq : t.busy = s.busy
  tick_eq : t.tick = s.tick

/-- Where each byte of a run comes from (R124): the history before it, or, past the first `d + 1` bytes, the run itself. -/
def RunBytes (d : BitVec 16) (s : State) (out : List Byte) : Prop :=
  ∀ k (h : k < out.length),
    (k ≤ d.toNat → winGet (BitVec.ofNat 16 (d.toNat - k)) s = some out[k]) ∧
    (d.toNat < k → out[k] = out[k - 1 - d.toNat])

/-- A call that raised `e` (R190): POISONED, the error as the response; outside the failing call's buffer the host's
memory is as before. Nothing is said of what R191 leaves unspecified. -/
structure CallFailed (e : ErrorKind) (s t : State) : Prop where
  fsm_eq : t.fsm = .poisoned
  resp_eq : t.resp = some (.error e)
  untouched : ∀ a, (a < s.req.base ∨ s.req.base + s.req.len ≤ a) → t.buf.read a = s.buf.read a
  interface : SameInterface s t
  busy_eq : t.busy = s.busy

/-- A call that waits for the source (R58, R200): it has not returned and has answered nothing, and all state survives the
wait. `t` is the state of the wait: `fsm`, `ctype` and the owed bytes are the arguments' (those of the chunk adopted, or,
inside a header, those before the call), `coff` and the whole window are as before, the cursor stands past every byte the
source has delivered, and of the host's memory only `out`, the payload bytes pulled so far, has been written to BUF. That
the wait is a next state with `busy` set is the model's choice (log 3). -/
structure CallWaits (fsm : Fsm) (ctype : CType) (owed : Nat) (out : List Byte) (s t : State) : Prop where
  fsm_eq : t.fsm = fsm
  ctype_eq : t.ctype = ctype
  owes : t.csize.toNat = owed
  coff_eq : t.coff = s.coff
  win_eq : t.win = s.win
  wp_eq : t.wp = s.wp
  hist_eq : t.hist = s.hist
  outCount_eq : t.outCount = s.outCount
  cursor : t.inPos = s.inPos + s.remaining.length
  buffer : Written s t out
  interface : SameInterface s t
  busy_eq : t.busy = true
  resp_eq : t.resp = s.resp
  tick_eq : t.tick = s.tick

/-- How a call ends when the source's terminator answers inside a chunk (R181, R183, R58); the arguments say what a wait
leaves. The kind SOURCE_FAULT is D3's (log 17), the wait as a next state is the model's choice (log 3). -/
def EndsInside (fsm : Fsm) (ctype : CType) (owed : Nat) (out : List Byte) (s t : State) : Prop :=
  match s.src.term with
  | .eos => CallFailed .truncatedInput s t
  | .fault => CallFailed .sourceFault s t
  | .never => CallWaits fsm ctype owed out s t

end Sys2Proof.Machine
end

