-- ==== Sys2Proof/Certificates/Slice0/Obligations.lean ====
section
/-! DEFINITION. Sys2Proof/Certificates/Slice0/Obligations.lean: the statements for the provers. -/

open Sys2Proof Sys2Proof.Machine

/-! ### Encoding (30_encoding.md) -/

/-- Decoding an encoded well-formed instruction gives it back, with every operand, and leaves the bytes after its header
(R93, R82 to R87). -/
def Obligations.DecodeOfEncodeIsTheInstruction : Prop :=
  ∀ (i : Instr) (rest : List Byte), i.wellFormed = true → decode (encode i ++ rest) = .ok i rest

/-- What the decoder reads is well formed (R108), and encoding it gives back the bytes it was read from. -/
def Obligations.EncodeOfDecodeIsTheBytes : Prop :=
  ∀ (bs rest : List Byte) (i : Instr), decode bs = .ok i rest → i.wellFormed = true ∧ encode i ++ rest = bs

/-- R85: the size of a Plain chunk, its range, no offset, and the rule's examples. -/
def Obligations.PlainSizeIsLowSevenBitsPlusOne : Prop :=
  (∀ (b0 : Byte) (rest : List Byte), 0x80 ≤ b0.toNat →
    decode (b0 :: rest) = .ok (.lit ((b0 &&& 0x7F#8).toNat + 1)) rest ∧
    1 ≤ (b0 &&& 0x7F#8).toNat + 1 ∧ (b0 &&& 0x7F#8).toNat + 1 ≤ 128) ∧
  decode [0x80#8] = .ok (.lit 1) [] ∧ decode [0x83#8] = .ok (.lit 4) [] ∧ decode [0xFF#8] = .ok (.lit 128) []

/-- R86: the size and the offset of a TwoByteRun chunk, their ranges, and the rule's examples. -/
def Obligations.TwoByteRunOperandsAreTheRulesFormulas : Prop :=
  (∀ (b0 b1 : Byte) (rest : List Byte), b0.toNat < 0x40 →
    decode (b0 :: b1 :: rest) =
      .ok (.run2 (((b0 &&& 0x3F#8).toNat >>> 2) + 3) (((b0 &&& 0x3#8).toNat <<< 8) ||| b1.toNat)) rest ∧
    3 ≤ ((b0 &&& 0x3F#8).toNat >>> 2) + 3 ∧ ((b0 &&& 0x3F#8).toNat >>> 2) + 3 ≤ 18 ∧
    ((b0 &&& 0x3#8).toNat <<< 8) ||| b1.toNat ≤ 1023) ∧
  decode [0x00#8, 0x00#8] = .ok (.run2 3 0) [] ∧
  decode [0x3F#8, 0xFF#8] = .ok (.run2 18 1023) [] ∧
  decode [0x00#8, 0xFF#8] = .ok (.run2 3 255) []

/-- R87: the size and the big-endian offset of a ThreeByteRun chunk, their ranges, and the rule's examples. -/
def Obligations.ThreeByteRunOperandsAreTheRulesFormulas : Prop :=
  (∀ (b0 b1 b2 : Byte) (rest : List Byte), 0x40 ≤ b0.toNat → b0.toNat < 0x80 →
    decode (b0 :: b1 :: b2 :: rest) =
      .ok (.run3 ((b0 &&& 0x3F#8).toNat + 4) ((b1.toNat <<< 8) ||| b2.toNat)) rest ∧
    4 ≤ (b0 &&& 0x3F#8).toNat + 4 ∧ (b0 &&& 0x3F#8).toNat + 4 ≤ 67 ∧
    (b1.toNat <<< 8) ||| b2.toNat ≤ 65535) ∧
  decode [0x40#8, 0x00#8, 0x06#8] = .ok (.run3 4 6) [] ∧
  decode [0x7F#8, 0xFF#8, 0xFF#8] = .ok (.run3 67 65535) []

/-- The decoder rejects exactly the sequences that end before or inside a header: no header encoding is reserved
(30_encoding.md sections 4 and 5). -/
def Obligations.OnlyIncompleteHeadersAreRejected : Prop :=
  ∀ bs : List Byte,
    (decode bs = .reject .noHeader ↔ bs = []) ∧
    (decode bs = .reject .truncated ↔
      (∃ b0, bs = [b0] ∧ b0.toNat < 0x80) ∨ (∃ b0 b1, bs = [b0, b1] ∧ 0x40 ≤ b0.toNat ∧ b0.toNat < 0x80))

/-- Three table words decode to the instructions of vectors E2, E9 and E13. That byte k of the stream is bits 8k+7 to 8k of
the word, padded with zeros, is the model's numbering (log 20), no rule of the spec. -/
def Obligations.SampleWordsDecode : Prop :=
  decodeTableWord 16 0xFF00 = some (.run2 3 255) ∧
  decodeTableWord 24 0x341241 = some (.run3 5 0x1234) ∧
  decodeTableWord 8 0xC0 = some (.lit 65)

/-- A stream of LIT lines decodes to its payload bytes, in order, and ends cleanly (R93's notation; LIT applies no
transformation). -/
def Obligations.LiteralStreamDecodesToItsPayload : Prop :=
  ∀ ls : List ChunkLine, (∀ l ∈ ls, l.wellFormed = true ∧ l.instr.ctype = .plain) →
    decodeRef { bytes := encodeStream ls, term := .eos } = { ended := .eof, out := ls.flatMap ChunkLine.payload }

/-- A stream of well-formed lines never ends inside a header or a payload: its decoding is EOF or INVALID_OFFSET, and at
EOF the output is as long as the sum of the chunk sizes (42_produce.md section 3, vector W8). -/
def Obligations.EncodedStreamOutputLengthIsTheSumOfSizes : Prop :=
  ∀ ls : List ChunkLine, (∀ l ∈ ls, l.wellFormed = true) →
    ((decodeRef { bytes := encodeStream ls, term := .eos }).ended = .eof ∧
      (decodeRef { bytes := encodeStream ls, term := .eos }).out.length = (ls.map fun l => l.instr.size).sum) ∨
    (decodeRef { bytes := encodeStream ls, term := .eos }).ended = .error .invalidOffset

/-! ### The window and the source (20_memory.md) -/

/-- R54: WinPush's effect, what WinGet answers after it, the eviction, and that nothing else changes. -/
def Obligations.WinPushMovesTheHistoryOneOlder : Prop :=
  ∀ (v : Byte) (s : State),
    winGet 0#16 (winPush v s) = some v ∧
    (∀ d : BitVec 16, d.toNat < 65535 → winGet (d + 1#16) (winPush v s) = winGet d s) ∧
    (winPush v s).win.read s.wp.toNat = some v ∧
    (∀ i, i ≠ s.wp.toNat → (winPush v s).win.read i = s.win.read i) ∧
    (winPush v s).wp.toNat = (s.wp.toNat + 1) % 65536 ∧
    (winPush v s).hist.toNat = min (s.hist.toNat + 1) 65536 ∧
    (winPush v s).outCount = s.outCount + 1 ∧
    (s.hist.toNat = 65536 → winGet 65535#16 s = some (winByte s s.wp.toNat)) ∧
    { winPush v s with win := s.win, wp := s.wp, hist := s.hist, outCount := s.outCount } = s

/-- R53: WinGet refuses exactly the distances not held, else reads the ring at `(wp - 1 - d) mod 65536`; in a run a
distance is held exactly when `d + 1` bytes have been produced. -/
def Obligations.WinGetReadsTheRingOrRefuses : Prop :=
  ∀ (d : BitVec 16) (s : State),
    (s.hist.toNat ≤ d.toNat → winGet d s = none) ∧
    (d.toNat < s.hist.toNat → winGet d s = some (winByte s ((s.wp.toNat + 65535 - d.toNat) % 65536))) ∧
    (Inv s → s.live = true → s.fsm ≠ .poisoned →
      ((winGet d s).isSome = true ↔ d.toNat + 1 ≤ s.outCount) ∧ (s.hist.toNat ≤ d.toNat ↔ s.outCount ≤ d.toNat))

/-- Extending by a block keeps output order: the last byte of the block is nearest, the old history lies behind it
(20_memory.md section 2, conflict C2). -/
def Obligations.ExtendingTheWindowKeepsOutputOrder : Prop :=
  ∀ (vs : List Byte) (s : State) (d : BitVec 16),
    (∀ h : d.toNat < vs.length, winGet d (winExtend vs s) = some (vs[vs.length - 1 - d.toNat]'(by omega))) ∧
    (vs.length ≤ d.toNat → winGet d (winExtend vs s) = winGet (BitVec.ofNat 16 (d.toNat - vs.length)) s)

/-- In a run, every distance smaller than the bytes produced and representable is held, and reads a byte that was pushed:
eviction drops no reference the format permits (20_memory.md section 9). -/
def Obligations.EvictionDropsNoEncodableReference : Prop :=
  ∀ (d : BitVec 16) (s : State), Inv s → s.live = true → s.fsm ≠ .poisoned → d.toNat < s.outCount →
    ∃ v, winGet d s = some v ∧ s.win.read ((s.wp.toNat + 65535 - d.toNat) % 65536) = some v

/-- In a run, WIN holds at most 65536 bytes (20_memory.md section 10). -/
def Obligations.WindowNeverExceedsItsCapacity : Prop :=
  ∀ s : State, Inv s → s.win.length ≤ 65536

/-- A pull answers the source's bytes in order, moving the cursor by 1, and after them always the terminator, moving
nothing (20_memory.md section 3). -/
def Obligations.PullsAnswerTheSourceInOrder : Prop :=
  ∀ s : State,
    (∀ h : s.inPos < s.src.bytes.length,
      srcRead s = (.byte s.src.bytes[s.inPos], { s with inPos := s.inPos + 1 })) ∧
    (s.src.bytes.length ≤ s.inPos →
      srcRead s = (match s.src.term with | .eos => .eos | .fault => .fault | .never => .unanswered, s))

/-! ### The three chunk instructions (41_chunk_instructions.md) -/

/-- LIT: whenever the payload bytes this call needs are there, it answers (OK, n), having delivered and pushed exactly
them; the cursor moves by n, `coff` is not written. -/
def Obligations.LitDeliversItsPayload : Prop :=
  ∀ (size : Nat) (s : State), (Instr.lit size).wellFormed = true → min size s.req.len ≤ s.remaining.length →
    ∃ t, exec (.lit size) s = .next t ∧
      CallDone size s t (s.remaining.take (min size s.req.len)) ∧
      t.ctype = .plain ∧ t.coff = s.coff ∧ t.inPos = s.inPos + min size s.req.len

/-- LIT with its payload cut short: the terminator decides. End is TRUNCATED_INPUT. Fault is SOURCE_FAULT, the kind D3 gives
a source failure (log 17). With no answer the call waits, ACTIVE with the adopted type and the full size owed, the payload
bytes there consumed and written to BUF, nothing pushed, everything else as before (R200: all state survives); that this wait
is a next state with `busy` set is the model's choice (log 3). -/
def Obligations.LitWithoutItsPayloadEndsAsTheSourceSays : Prop :=
  ∀ (size : Nat) (s : State), (Instr.lit size).wellFormed = true → s.remaining.length < min size s.req.len →
    ∃ t, exec (.lit size) s = .next t ∧ EndsInside .active .plain size s.remaining s t

/-- RUN2: whenever the history holds the offset, or no byte is asked for, it answers (OK, n), having delivered and pushed
`n` bytes copied one by one from the history and from the run itself; the cursor does not move. -/
def Obligations.Run2CopiesFromTheHistory : Prop :=
  ∀ (size off : Nat) (s : State), (Instr.run2 size off).wellFormed = true → (s.req.len = 0 ∨ off < s.hist.toNat) →
    ∃ t out, exec (.run2 size off) s = .next t ∧ CallDone size s t out ∧ RunBytes (BitVec.ofNat 16 off) s out ∧
      t.ctype = .run2 ∧ t.coff.toNat = off ∧ t.inPos = s.inPos

/-- RUN3: the same, with its own ranges. -/
def Obligations.Run3CopiesFromTheHistory : Prop :=
  ∀ (size off : Nat) (s : State), (Instr.run3 size off).wellFormed = true → (s.req.len = 0 ∨ off < s.hist.toNat) →
    ∃ t out, exec (.run3 size off) s = .next t ∧ CallDone size s t out ∧ RunBytes (BitVec.ofNat 16 off) s out ∧
      t.ctype = .run3 ∧ t.coff.toNat = off ∧ t.inPos = s.inPos

/-- RUN2 and RUN3 whose offset the history does not hold raise INVALID_OFFSET as soon as a byte is asked for. -/
def Obligations.RunBeyondTheHistoryIsInvalidOffset : Prop :=
  ∀ (i : Instr) (off : Nat) (s : State), i.wellFormed = true →
    (i = .run2 i.size off ∨ i = .run3 i.size off) → 1 ≤ s.req.len → s.hist.toNat ≤ off →
    ∃ t, exec i s = .next t ∧ CallFailed .invalidOffset s t

/-- R125: INVALID_OFFSET arises only at the first byte, before anything is written or pushed; after a first byte the
offset stays held, in this call and in every later one. In a run a held first offset is one below `out_count`. -/
def Obligations.InvalidOffsetOnlyAtTheFirstByte : Prop :=
  ∀ (n i : Nat) (s : State),
    (∀ e t, runStep n i s = .raised e t → e = .invalidOffset ∧ t = s ∧ s.hist.toNat ≤ s.coff.toNat) ∧
    (∀ v, winGet s.coff s = some v →
      (∃ t, runStep n i s = .done () t ∧ t.outCount = s.outCount + n ∧ t.coff = s.coff ∧
        (winGet t.coff t).isSome = true) ∧
      (Inv s → s.live = true → s.fsm ≠ .poisoned → s.coff.toNat < s.outCount))

/-- R126: a run that overlaps itself repeats the last `d + 1` bytes before it; one that does not copies bytes that all
precede it; with offset 0 it repeats the last byte. -/
def Obligations.SelfOverlappingRunRepeatsItsPeriod : Prop :=
  ∀ (i : Instr) (d : Nat) (s : State), i.wellFormed = true →
    (i = .run2 i.size d ∨ i = .run3 i.size d) → i.size ≤ s.req.len → d < s.hist.toNat →
    ∃ t, exec i s = .next t ∧ t.resp = some (.ok i.size) ∧
      (d + 1 < i.size → ∀ k < i.size,
        t.buf.read (s.req.base + k) = winGet (BitVec.ofNat 16 (d - k % (d + 1))) s) ∧
      (i.size ≤ d + 1 → ∀ k < i.size, t.buf.read (s.req.base + k) = winGet (BitVec.ofNat 16 (d - k)) s) ∧
      (d = 0 → ∀ k < i.size, t.buf.read (s.req.base + k) = winGet 0#16 s)

/-- A call for no bytes only adopts the chunk, whatever the instruction (42_produce.md section 2). -/
def Obligations.AZeroLengthCallOnlyAdoptsTheChunk : Prop :=
  ∀ (i : Instr) (s : State), i.wellFormed = true → s.req.len = 0 →
    ∃ t, exec i s = .next t ∧ t.fsm = .active ∧ t.csize.toNat = i.size ∧ t.ctype = i.ctype ∧ t.resp = some (.ok 0) ∧
      { t with fsm := s.fsm, csize := s.csize, ctype := s.ctype, coff := s.coff, resp := s.resp } = s

/-! ### PRODUCE and its state machine (42_produce.md) -/

/-- A step that takes a PRODUCE in NO_CHUNK, where the source's next bytes decode to an instruction, is that instruction
run with the cursor past its header, the command taken and its operand in `req`. -/
def Obligations.StepRunsTheDecodedInstruction : Prop :=
  ∀ (s : State) (r : Request) (cs : List Command) (i : Instr) (rest : List Byte),
    s.cmds = .produce r :: cs → s.live = true → s.busy = false → s.fsm = .noChunk →
    decode s.remaining = .ok i rest →
    step s = exec i { s with cmds := cs, req := r, resp := none, inPos := s.inPos + i.headerLength }

/-- A PRODUCE in NO_CHUNK whose header is not whole: the clean end enters EOF with (OK, 0), a cut header raises
TRUNCATED_INPUT, a failing source SOURCE_FAULT (clause 2 and clause 4: the kind D3 gives it, log 17), an unanswered pull
waits, still in NO_CHUNK with every register as before and the cursor past the header bytes that were there (R200: all state
survives). That this wait is a next state with `busy` set (clause 3, and clause 4's wait) is the model's choice (log 3). -/
def Obligations.ProduceWithoutAWholeHeader : Prop :=
  ∀ (s : State) (r : Request), s.fsm = .noChunk →
    (s.remaining = [] → s.src.term = .eos → produce r s = .next { s with req := r, resp := some (.ok 0), fsm := .eof }) ∧
    (s.remaining = [] → s.src.term = .fault →
      ∃ t, produce r s = .next t ∧ CallFailed .sourceFault (beginProduce r s) t) ∧
    (s.remaining = [] → s.src.term = .never → produce r s = .next { s with req := r, resp := none, busy := true }) ∧
    (decode s.remaining = .reject .truncated → ∃ t, produce r s = .next t ∧
      EndsInside .noChunk s.ctype s.csize.toNat [] (beginProduce r s) t)

/-- A PRODUCE in ACTIVE with a Plain chunk goes on with the payload where the last call stopped. With the payload cut short
the terminator decides: TRUNCATED_INPUT, SOURCE_FAULT (the kind D3 gives a source failure, log 17), or the wait, still ACTIVE
with the same type, owed size and window, the payload bytes there consumed and written to BUF (R200: all state survives).
That this wait is a next state with `busy` set is the model's choice (log 3). -/
def Obligations.ActivePlainChunkContinues : Prop :=
  ∀ (s : State) (r : Request), s.fsm = .active → s.ctype = .plain →
    (min s.csize.toNat r.len ≤ s.remaining.length →
      ∃ t, produce r s = .next t ∧
        CallDone s.csize.toNat (beginProduce r s) t (s.remaining.take (min s.csize.toNat r.len)) ∧
        t.ctype = .plain ∧ t.coff = s.coff ∧ t.inPos = s.inPos + min s.csize.toNat r.len) ∧
    (s.remaining.length < min s.csize.toNat r.len → ∃ t, produce r s = .next t ∧
      EndsInside .active .plain s.csize.toNat s.remaining (beginProduce r s) t)

/-- A PRODUCE in ACTIVE with a run chunk goes on with the same offset; an offset that a zero-length call left unchecked
and the history does not hold raises INVALID_OFFSET. -/
def Obligations.ActiveRunChunkContinues : Prop :=
  ∀ (s : State) (r : Request), s.fsm = .active → s.ctype ≠ .plain →
    (s.coff.toNat < s.hist.toNat →
      ∃ t out, produce r s = .next t ∧ CallDone s.csize.toNat (beginProduce r s) t out ∧
        RunBytes s.coff (beginProduce r s) out ∧ t.ctype = s.ctype ∧ t.coff = s.coff ∧ t.inPos = s.inPos) ∧
    (s.hist.toNat ≤ s.coff.toNat → 1 ≤ s.csize.toNat → 1 ≤ r.len →
      ∃ t, produce r s = .next t ∧ CallFailed .invalidOffset (beginProduce r s) t)

/-- R150: a PRODUCE with `len = 0`. In NO_CHUNK it parses the next header: at the clean end it enters EOF, on success
ACTIVE with the full size, and only a failed parse is an error. In ACTIVE it changes nothing, so an offset that is not held
is not detected. Always (OK, 0), if it answers without an error. -/
def Obligations.ZeroLengthProduceOnlyParses : Prop :=
  ∀ (s : State) (r : Request), r.len = 0 →
    (s.fsm = .active → 1 ≤ s.csize.toNat → produce r s = .next { s with req := r, resp := some (.ok 0) }) ∧
    (s.fsm = .noChunk → s.remaining = [] → s.src.term = .eos →
      produce r s = .next { s with req := r, resp := some (.ok 0), fsm := .eof }) ∧
    (∀ i rest, s.fsm = .noChunk → decode s.remaining = .ok i rest →
      ∃ t, produce r s = .next t ∧ t.fsm = .active ∧ t.ctype = i.ctype ∧ t.csize.toNat = i.size ∧
        t.resp = some (.ok 0) ∧ t.inPos = s.inPos + i.headerLength ∧ t.outCount = s.outCount ∧ t.win = s.win ∧
        t.buf = s.buf) ∧
    (∀ t e, produce r s = .next t → t.resp = some (.error e) →
      s.fsm = .noChunk ∧ ∀ i rest, decode s.remaining ≠ .ok i rest)

/-- R142: in EOF a PRODUCE answers (OK, 0) for every `len`, changes no state of the block and pulls nothing. -/
def Obligations.ProduceInEofAnswersZero : Prop :=
  ∀ (s : State) (r : Request), s.fsm = .eof → produce r s = .next { s with req := r, resp := some (.ok 0) }

/-- R147: in POISONED a PRODUCE is the fault PoisonedAccess, also as a step. -/
def Obligations.ProduceInPoisonedFaults : Prop :=
  ∀ (s : State) (r : Request) (cs : List Command), s.fsm = .poisoned →
    produce r s = .fault .poisonedAccess ∧
    (s.cmds = .produce r :: cs → s.live = true → s.busy = false → step s = .fault .poisonedAccess)

/-- R154: a source whose first answer is End makes the first PRODUCE answer (OK, 0) and enter EOF. -/
def Obligations.EmptyInputReachesEof : Prop :=
  ∀ (s : State) (src : Source) (r : Request), src.bytes = [] → src.term = .eos →
    ∃ t, produce r (create src s) = .next t ∧ t.resp = some (.ok 0) ∧ t.fsm = .eof

/-- A run chunk as the first chunk of a stream fails with INVALID_OFFSET at the first call that asks for a byte, because
the window starts empty. -/
def Obligations.FirstChunkMustBeLiteral : Prop :=
  ∀ (s : State) (src : Source) (r : Request) (i : Instr) (rest : List Byte), decode src.bytes = .ok i rest →
    i.ctype ≠ .plain → 1 ≤ r.len →
    ∃ t, produce r (create src s) = .next t ∧ CallFailed .invalidOffset (beginProduce r (create src s)) t

/-- In a run, a PRODUCE that answers (OK, n) has `n` at most `len`, at most 128, at most 18 for a RUN2 chunk and at most
67 for a RUN3 chunk. -/
def Obligations.CountNeverExceedsRequestOrChunk : Prop :=
  ∀ (s t : State) (r : Request) (n : Nat), Inv s → s.live = true → produce r s = .next t → t.resp = some (.ok n) →
    n ≤ r.len ∧ n ≤ 128 ∧ (t.ctype = .run2 → n ≤ 18) ∧ (t.ctype = .run3 → n ≤ 67)

/-- R149: in a run, a PRODUCE with `len >= 1` answers (OK, 0) exactly when the block is in EOF after it, and then it found
EOF or met the clean end of the stream. -/
def Obligations.ZeroCountMeansEof : Prop :=
  ∀ (s t : State) (r : Request), Inv s → s.live = true → 1 ≤ r.len → produce r s = .next t →
    (t.resp = some (.ok 0) ↔ t.fsm = .eof) ∧
    (t.fsm = .eof ↔ s.fsm = .eof ∨ (s.fsm = .noChunk ∧ s.remaining = [] ∧ s.src.term = .eos))

/-- Every PRODUCE that ends makes one of the transitions of the state machine's table (42_produce.md section 2). -/
def Obligations.ProduceMakesOnlyTheTablesTransitions : Prop :=
  ∀ (s t : State) (r : Request), s.busy = false → produce r s = .next t → t.busy = false →
    (s.fsm = .eof ∧ t.fsm = .eof ∧ t.resp = some (.ok 0)) ∨
    (s.fsm = .noChunk ∧ s.remaining = [] ∧ s.src.term = .eos ∧ t.fsm = .eof ∧ t.resp = some (.ok 0)) ∨
    ((s.fsm = .noChunk ∨ s.fsm = .active) ∧ t.fsm = .poisoned ∧
      ∃ e, t.resp = some (.error e) ∧ e ≠ .bufferTooSmall) ∨
    (∃ owed, ((s.fsm = .active ∧ owed = s.csize.toNat) ∨
        (s.fsm = .noChunk ∧ ∃ i rest, decode s.remaining = .ok i rest ∧ owed = i.size)) ∧
      t.resp = some (.ok (min owed r.len)) ∧ t.csize.toNat = owed - min owed r.len ∧
      t.fsm = if min owed r.len = owed then .noChunk else .active)

/-- R127: after a PRODUCE that answers (OK, n), `out_count` has grown by `n` and the last `n` window bytes are
`BUF[0..n-1]` in order, each once. -/
def Obligations.ProducedBytesAreTheNewestHistory : Prop :=
  ∀ (s t : State) (r : Request) (n : Nat), Inv s → s.live = true → produce r s = .next t → t.resp = some (.ok n) →
    t.outCount = s.outCount + n ∧
    (∀ k < n, ∃ v, t.buf.read (r.base + k) = some v ∧ winGet (BitVec.ofNat 16 (n - 1 - k)) t = some v) ∧
    (∀ d : BitVec 16, d.toNat + n < 65536 → winGet (BitVec.ofNat 16 (d.toNat + n)) t = winGet d s)

/-- The cursor only moves forward (10_state.md section 3, 30_encoding.md section 1). A PRODUCE that answers (OK, n) never
moves it back, and a chunk produced whole in one call moves it by its header and its payload. A PRODUCE that waits has
consumed exactly the bytes the source delivered. No step moves it back, save CREATE and DROP and one that ends in POISONED,
where R191 leaves the cursor unspecified. That the wait is a next state with `busy` set is the model's choice (log 3). -/
def Obligations.CursorMovesForwardByHeaderAndPayload : Prop :=
  (∀ (s t : State) (r : Request), produce r s = .next t →
    (∀ n, t.resp = some (.ok n) →
      s.inPos ≤ t.inPos ∧
      (∀ i rest, s.fsm = .noChunk → decode s.remaining = .ok i rest → i.size ≤ r.len →
        t.inPos = s.inPos + i.headerLength + i.payloadLength)) ∧
    (s.busy = false → t.busy = true → s.inPos ≤ t.inPos ∧ t.inPos = s.inPos + s.remaining.length)) ∧
  (∀ s t : State, step s = .next t → t.fsm ≠ .poisoned → (∀ src cs, s.cmds ≠ .create src :: cs) →
    (∀ cs, s.cmds ≠ .drop :: cs) → s.inPos ≤ t.inPos)

/-- The block never reads the host's memory: two states that differ only there answer alike, deliver alike and stay alike
in everything else (20_memory.md sections 4 and 9). -/
def Obligations.HostMemoryNeverInfluencesTheBlock : Prop :=
  ∀ (s t : State) (r : Request) (m : Memory), produce r s = .next t →
    ∃ t', produce r { s with buf := m } = .next t' ∧ { t' with buf := t.buf } = t ∧ delivered t' = delivered t

/-! ### Errors (60_exceptions.md) -/

/-- Every error a PRODUCE answers has entered POISONED, and POISONED is entered with an error only; nothing the host's
side holds changes outside the failing call's buffer. -/
def Obligations.EveryErrorPoisonsTheBlock : Prop :=
  ∀ (s t : State) (r : Request), produce r s = .next t →
    (∀ e, t.resp = some (.error e) → CallFailed e (beginProduce r s) t) ∧
    (t.fsm = .poisoned → ∃ e, t.resp = some (.error e))

/-- R184: the core never answers BUFFER_TOO_SMALL; FILL answers it exactly when a PRODUCE it needed answered (OK, 0), and
the core is then not poisoned. -/
def Obligations.BufferTooSmallIsFillsAlone : Prop :=
  (∀ (s t : State) (r : Request), produce r s = .next t → t.resp ≠ some (.error .bufferTooSmall)) ∧
  (∀ (s t : State) (r : Request) (filled : Nat), Inv s → s.live = true → filled < r.len →
    fillTurn r filled s = .next t →
    (t.fillResp = some (.error .bufferTooSmall) ↔ t.resp = some (.ok 0)) ∧
    (t.fillResp = some (.error .bufferTooSmall) → t.fsm ≠ .poisoned))

/-- R222: EOF and POISONED persist until CREATE or DROP; no other step of a live block leaves them. -/
def Obligations.EofAndPoisonedPersistUntilCreateOrDrop : Prop :=
  ∀ (s t : State), s.live = true → s.fsm = .eof ∨ s.fsm = .poisoned → step s = .next t →
    (∀ src cs, s.cmds ≠ .create src :: cs) → (∀ cs, s.cmds ≠ .drop :: cs) → t.fsm = s.fsm ∧ t.live = true

/-! ### CREATE, DROP and the host's side (70_reset_and_hazards.md, 43_fill_wrapper.md) -/

/-- CREATE is accepted in every state in which no PRODUCE is waiting, and leaves the values R36 gives; of the old window
nothing is left; it answers nothing. -/
def Obligations.CreateGivesTheResetValues : Prop :=
  ∀ (s : State) (src : Source) (cs : List Command), s.cmds = .create src :: cs → s.busy = false →
    ∃ t, step s = .next t ∧ t.fsm = .noChunk ∧ t.wp = 0#16 ∧ t.hist = 0#17 ∧ t.src = src ∧ t.inPos = 0 ∧
      t.outCount = 0 ∧ t.live = true ∧ t.busy = false ∧ t.resp = none ∧ t.cmds = cs ∧ t.win = [] ∧ t.buf = s.buf ∧
      ∀ d, winGet d t = none

/-- The machine after reset holds the values R36 gives. -/
def Obligations.ResetHoldsTheGivenValues : Prop :=
  State.reset.fsm = .noChunk ∧ State.reset.wp = 0#16 ∧ State.reset.hist = 0#17 ∧ State.reset.inPos = 0 ∧
    State.reset.outCount = 0 ∧ ∀ d, winGet d State.reset = none

/-- DROP releases the block, whatever it is doing, and after it only CREATE has a meaning (the refusal, and how a released
window and source stand in State, are the model's: log 5). That the host's memory is as before, also where DROP cancels a
PRODUCE that waits with part of its payload written to BUF, is the model's choice: the spec is silent there (log 24). -/
def Obligations.AfterDropOnlyCreateHasAMeaning : Prop :=
  (∀ (s : State) (cs : List Command), s.cmds = .drop :: cs → s.live = true →
    ∃ t, step s = .next t ∧ t.live = false ∧ t.busy = false ∧ t.win = [] ∧ t.src = Source.unbound ∧ t.resp = none ∧
      t.cmds = cs ∧ t.buf = s.buf) ∧
  (∀ (s : State) (c : Command) (cs : List Command), s.live = false → s.busy = false → s.cmds = c :: cs →
    (∃ src, c = .create src ∧ ∃ t, step s = .next t ∧ t.live = true) ∨
    ((∀ src, c ≠ .create src) ∧ step s = .refused .noInstance))

/-- A PRODUCE that waits goes on waiting while the host asks nothing; only DROP ends the wait, and every other command is
an overlap, which has no step (the refusal is the model's: log 3 and 4). -/
def Obligations.OnlyDropEndsTheWait : Prop :=
  ∀ s : State, s.live = true → s.busy = true →
    (s.cmds = [] → step s = .next s) ∧
    (∀ cs, s.cmds = .drop :: cs → ∃ t, step s = .next t ∧ t.live = false ∧ t.busy = false) ∧
    (∀ c cs, c ≠ .drop → s.cmds = c :: cs → step s = .refused .overlappingCommand)

/-- With no command pending a step changes nothing (the model's choice: log 1). -/
def Obligations.NoCommandNoChange : Prop :=
  ∀ s : State, s.cmds = [] → step s = .next s

/-- FILL(0), and every FILL whose buffer is full, answers OK without a PRODUCE and changes nothing of the block. -/
def Obligations.FullFillAnswersOkWithoutAProduce : Prop :=
  ∀ (s : State) (r : Request) (filled : Nat) (cs : List Command), s.cmds = .fill r filled :: cs → s.live = true →
    s.busy = false → r.len ≤ filled → step s = .next { s with cmds := cs, fillResp := some .ok }

/-- An error of a PRODUCE inside FILL is FILL's answer, unchanged, and the core is POISONED; an address outside FILL's
buffer reads as before. -/
def Obligations.FillPassesErrorsOnUnchanged : Prop :=
  ∀ (s t : State) (r : Request) (filled : Nat) (e : ErrorKind), filled < r.len → fillTurn r filled s = .next t →
    t.resp = some (.error e) →
    t.fillResp = some (.error e) ∧ t.fsm = .poisoned ∧ t.cmds = s.cmds ∧
      ∀ a, (a < r.base ∨ r.base + r.len ≤ a) → t.buf.read a = s.buf.read a

/-- FILL from CREATE: a FILL of no more bytes than a clean stream decodes to ends OK with exactly the first of them in its
buffer, and a FILL of all of them leaves the core in NO_CHUNK; a longer one ends BUFFER_TOO_SMALL in EOF with all of them there (43_fill_wrapper.md). -/
def Obligations.FillDeliversTheDecodedStream : Prop :=
  ∀ (s : State) (src : Source) (r : Request), (decodeRef src).ended = .eof →
    (r.len ≤ (decodeRef src).out.length →
      ∃ (k : Nat) (t : State),
        Host.Core.run Sys2Proof.core k { create src s with cmds := [.fill r 0] } = .next t ∧ t.cmds = [] ∧
          t.fillResp = some .ok ∧ (r.len = (decodeRef src).out.length → t.fsm = .noChunk) ∧
          ∀ j (h : j < (decodeRef src).out.length), j < r.len →
            t.buf.read (r.base + j) = some (decodeRef src).out[j]) ∧
    ((decodeRef src).out.length < r.len →
      ∃ (k : Nat) (t : State),
        Host.Core.run Sys2Proof.core k { create src s with cmds := [.fill r 0] } = .next t ∧ t.cmds = [] ∧
          t.fillResp = some (.error .bufferTooSmall) ∧ t.fsm = .eof ∧
          ∀ j (h : j < (decodeRef src).out.length), t.buf.read (r.base + j) = some (decodeRef src).out[j])

/-- The numeric labels of the decoder states, the chunk types and the status (D6). -/
def Obligations.CodesAreTheSpecsLabels : Prop :=
  [Fsm.noChunk, .active, .eof, .poisoned].map fsmCode = [0, 1, 2, 3] ∧
  [CType.run2, .run3, .plain].map ctypeCode = [0b00, 0b01, 0b10] ∧
  statusCode (.ok 5) = 0 ∧
  [ErrorKind.truncatedInput, .invalidOffset, .sourceFault, .bufferTooSmall].map errorCode = [1, 2, 3, 4] ∧
  ∀ f, fsmOfCode (fsmCode f) = f

/-! ### Whole machine -/

/-- Every step keeps the invariant: both memories canonical, the window inside its array, and, in a run without an error,
R37 (a), (b), (c), (e). -/
def Obligations.EveryStepKeepsTheInvariant : Prop :=
  ∀ s t : State, Inv s → step s = .next t → Inv t

/-- The invariant holds after reset. -/
def Obligations.ResetMeetsTheInvariant : Prop := Inv State.reset

/-- Split invariance (a): whatever the host asks, the bytes its calls deliver from CREATE on are a prefix of the reference
decoding of the source. -/
def Obligations.EverySplitDeliversAPrefixOfTheDecoding : Prop :=
  ∀ (s : State) (src : Source) (rs : List Request),
    (serve rs (create src s)).out <+: (decodeRef src).out.map some

/-- Split invariance (b): an error is the reference decoding's own end, and the run has then failed. The kind SOURCE_FAULT,
in the machine and in the reference, is D3's (log 17). The second clause is more than R153 (b) says: a call that does not
return is the reference decoding's hang (R152, R156), and that it leaves a state with `busy` set is the model's choice (log
3). The third: the model itself never stops a host that keeps its duties. -/
def Obligations.EverySplitEndsAsTheDecoding : Prop :=
  ∀ (s : State) (src : Source) (rs : List Request),
    (∀ e, (serve rs (create src s)).ended = .failed e →
      (decodeRef src).ended = .error e ∧ (serve rs (create src s)).final.failed) ∧
    ((serve rs (create src s)).ended = .hung →
      (decodeRef src).ended = .hang ∧ (serve rs (create src s)).final.waiting) ∧
    (serve rs (create src s)).ended ≠ .stopped

/-- Split invariance (c): a completed run has delivered exactly the reference decoding, which ended cleanly. -/
def Obligations.CompletedRunDeliversTheWholeDecoding : Prop :=
  ∀ (s : State) (src : Source) (rs : List Request), (serve rs (create src s)).ended = .running →
    (serve rs (create src s)).final.completed →
    (decodeRef src).ended = .eof ∧ (serve rs (create src s)).out = (decodeRef src).out.map some

/-- Split invariance (d): with every request at least one byte long, EOF, an error or a wait (a next state with `busy`
set, the model's choice: log 3) is reached within one call more than the decoding has bytes. -/
def Obligations.NonemptyRequestsReachTheEnd : Prop :=
  ∀ (s : State) (src : Source) (rs : List Request), (∀ r ∈ rs, 1 ≤ r.len) →
    (decodeRef src).out.length + 1 ≤ rs.length →
    (serve rs (create src s)).ended = .running → (serve rs (create src s)).final.completed

/-- R37 (d): while every call has answered OK, the window holds the newest of the bytes delivered, the byte at distance
`d` being the one at position `out_count - 1 - d`. -/
def Obligations.WindowHoldsTheNewestDeliveredBytes : Prop :=
  ∀ (s : State) (src : Source) (rs : List Request) (d : BitVec 16), (serve rs (create src s)).ended = .running →
    (serve rs (create src s)).final.outCount = (serve rs (create src s)).out.length ∧
    (d.toNat < (serve rs (create src s)).final.hist.toNat →
      (serve rs (create src s)).out[(serve rs (create src s)).final.outCount - 1 - d.toNat]? =
        some (winGet d (serve rs (create src s)).final))
end

