-- ==== Sys2Proof/Laws/Memory.lean ====
section
/-! SUPPORT. Sys2Proof/Laws/Memory.lean: read after write, and that every memory operation keeps the canonical form. -/

namespace Sys2Proof.Machine

@[simp] theorem Memory.read_nil (a : Nat) : Memory.read [] a = none := rfl

theorem Memory.read_write (m : Memory) (a b : Nat) (v : Byte) :
    (m.write a v).read b = if b = a then some v else m.read b := by
  induction m with
  | nil => simp [Memory.write, Memory.read, eq_comm]
  | cons c m ih =>
    simp only [Memory.write]
    split
    · simp only [Memory.read]; grind
    · split
      · simp only [Memory.read]; grind
      · simp only [Memory.read, ih]; grind

@[simp] theorem Memory.read_write_same (m : Memory) (a : Nat) (v : Byte) : (m.write a v).read a = some v := by
  simp [Memory.read_write]

theorem Memory.read_write_other (m : Memory) {a b : Nat} (v : Byte) (h : b ≠ a) : (m.write a v).read b = m.read b := by
  simp [Memory.read_write, h]

/-- Forgetting makes exactly the named bytes unspecified. -/
theorem Memory.read_forget (m : Memory) (base n a : Nat) :
    (m.forget base n).read a = if base ≤ a ∧ a < base + n then none else m.read a := by
  induction m with
  | nil => simp [Memory.forget]
  | cons c m ih =>
    have key : (Memory.forget (c :: m) base n) =
        if c.1 < base ∨ base + n ≤ c.1 then c :: Memory.forget m base n else Memory.forget m base n := by
      simp [Memory.forget, List.filter_cons]
    rw [key]
    split <;> simp only [Memory.read] <;> grind

/-- An address is listed exactly when some entry has it. -/
theorem Memory.read_isSome (m : Memory) (a : Nat) : (m.read a).isSome = true ↔ ∃ c ∈ m, c.1 = a := by
  induction m with
  | nil => simp
  | cons c m ih =>
    simp only [Memory.read]
    split
    · rename_i h
      simp [h]
    · rename_i h
      simp [ih, h]

theorem Memory.mem_write {m : Memory} {a : Nat} {v : Byte} {c : Host.Cell} (h : c ∈ m.write a v) :
    c = (a, v) ∨ c ∈ m := by
  induction m with
  | nil => simpa [Memory.write] using h
  | cons d m ih =>
    simp only [Memory.write] at h
    split at h
    · simpa using h
    · split at h
      · rcases List.mem_cons.mp h with h | h <;> simp [h]
      · rcases List.mem_cons.mp h with h | h
        · simp [h]
        · rcases ih h with h | h <;> simp [h]

/-- Every write keeps the canonical form. -/
theorem Memory.wf_write {m : Memory} (a : Nat) (v : Byte) (h : m.wf) : (m.write a v).wf := by
  induction m with
  | nil => simp [Memory.write, Memory.wf]
  | cons d m ih =>
    have hd := List.pairwise_cons.mp h
    simp only [Memory.write]
    split
    · rename_i ha
      refine List.pairwise_cons.mpr ⟨?_, h⟩
      intro c hc
      rcases List.mem_cons.mp hc with rfl | hc
      · exact ha
      · exact lt_trans ha (hd.1 c hc)
    · split
      · rename_i ha
        exact List.pairwise_cons.mpr ⟨fun c hc => ha ▸ hd.1 c hc, hd.2⟩
      · rename_i ha hb
        refine List.pairwise_cons.mpr ⟨?_, ih hd.2⟩
        intro c hc
        rcases Memory.mem_write hc with rfl | hc
        · show d.1 < a
          omega
        · exact hd.1 c hc

/-- Every forgetting keeps the canonical form. -/
theorem Memory.wf_forget {m : Memory} (base n : Nat) (h : m.wf) : (m.forget base n).wf :=
  List.Pairwise.filter _ h

/-- In canonical form, equal reads mean equal memories. -/
theorem Memory.ext_of_wf {m k : Memory} (hm : m.wf) (hk : k.wf) (h : ∀ a, m.read a = k.read a) : m = k := by
  induction m generalizing k with
  | nil =>
    cases k with
    | nil => rfl
    | cons d k => have := h d.1; simp [Memory.read] at this
  | cons c m ih =>
    cases k with
    | nil => have := h c.1; simp [Memory.read] at this
    | cons d k =>
      have hm' := List.pairwise_cons.mp hm
      have hk' := List.pairwise_cons.mp hk
      have low : ∀ (l : Memory) (x : Host.Cell) (a : Nat), (∀ y ∈ l, x.1 < y.1) → a ≤ x.1 → l.read a = none := by
        intro l x a hl ha
        by_contra hne
        obtain ⟨y, hy, rfl⟩ := (Memory.read_isSome l a).mp (Option.isSome_iff_ne_none.mpr hne)
        have := hl y hy
        omega
      have hcd : c.1 = d.1 := by
        rcases lt_trichotomy c.1 d.1 with hlt | heq | hgt
        · have h1 := h c.1
          simp only [Memory.read, if_true, if_neg (Nat.ne_of_gt hlt)] at h1
          rw [low k d c.1 hk'.1 (le_of_lt hlt)] at h1
          simp at h1
        · exact heq
        · have h1 := h d.1
          simp only [Memory.read, if_true, if_neg (Nat.ne_of_gt hgt)] at h1
          rw [low m c d.1 hm'.1 (le_of_lt hgt)] at h1
          simp at h1
      have hv : c.2 = d.2 := by simpa [Memory.read, hcd] using h c.1
      have htail : m = k := by
        refine ih hm'.2 hk'.2 fun a => ?_
        by_cases ha : a = c.1
        · subst ha
          rw [low m c _ hm'.1 le_rfl, low k d _ hk'.1 (le_of_eq hcd)]
        · have h1 := h a
          simpa [Memory.read, Ne.symm ha, show d.1 ≠ a from fun e => ha (hcd ▸ e.symm)] using h1
      rw [htail, Prod.ext hcd hv]

theorem State.reset_win_wf : State.reset.win.wf := List.Pairwise.nil

theorem State.reset_buf_wf : State.reset.buf.wf := List.Pairwise.nil

end Sys2Proof.Machine
end

