-- ==== Sys2Proof/Laws/State.lean ====
section
/-! SUPPORT. Sys2Proof/Laws/State.lean: what each state update does to each field, so that no later proof unfolds one.
The fields an update leaves to a free value have no lemma here. -/

namespace Sys2Proof.Machine

@[simp] theorem respond_fsm (r : Response) (s : State) : (respond r s).fsm = s.fsm := rfl
@[simp] theorem respond_ctype (r : Response) (s : State) : (respond r s).ctype = s.ctype := rfl
@[simp] theorem respond_csize (r : Response) (s : State) : (respond r s).csize = s.csize := rfl
@[simp] theorem respond_coff (r : Response) (s : State) : (respond r s).coff = s.coff := rfl
@[simp] theorem respond_win (r : Response) (s : State) : (respond r s).win = s.win := rfl
@[simp] theorem respond_wp (r : Response) (s : State) : (respond r s).wp = s.wp := rfl
@[simp] theorem respond_hist (r : Response) (s : State) : (respond r s).hist = s.hist := rfl
@[simp] theorem respond_src (r : Response) (s : State) : (respond r s).src = s.src := rfl
@[simp] theorem respond_inPos (r : Response) (s : State) : (respond r s).inPos = s.inPos := rfl
@[simp] theorem respond_outCount (r : Response) (s : State) : (respond r s).outCount = s.outCount := rfl
@[simp] theorem respond_live (r : Response) (s : State) : (respond r s).live = s.live := rfl
@[simp] theorem respond_busy (r : Response) (s : State) : (respond r s).busy = s.busy := rfl
@[simp] theorem respond_req (r : Response) (s : State) : (respond r s).req = s.req := rfl
@[simp] theorem respond_buf (r : Response) (s : State) : (respond r s).buf = s.buf := rfl
@[simp] theorem respond_resp (r : Response) (s : State) : (respond r s).resp = some r := rfl
@[simp] theorem respond_fillResp (r : Response) (s : State) : (respond r s).fillResp = s.fillResp := rfl
@[simp] theorem respond_cmds (r : Response) (s : State) : (respond r s).cmds = s.cmds := rfl
@[simp] theorem respond_tick (r : Response) (s : State) : (respond r s).tick = s.tick := rfl

@[simp] theorem wait_fsm (s : State) : (wait s).fsm = s.fsm := rfl
@[simp] theorem wait_ctype (s : State) : (wait s).ctype = s.ctype := rfl
@[simp] theorem wait_csize (s : State) : (wait s).csize = s.csize := rfl
@[simp] theorem wait_coff (s : State) : (wait s).coff = s.coff := rfl
@[simp] theorem wait_win (s : State) : (wait s).win = s.win := rfl
@[simp] theorem wait_wp (s : State) : (wait s).wp = s.wp := rfl
@[simp] theorem wait_hist (s : State) : (wait s).hist = s.hist := rfl
@[simp] theorem wait_src (s : State) : (wait s).src = s.src := rfl
@[simp] theorem wait_inPos (s : State) : (wait s).inPos = s.inPos := rfl
@[simp] theorem wait_outCount (s : State) : (wait s).outCount = s.outCount := rfl
@[simp] theorem wait_live (s : State) : (wait s).live = s.live := rfl
@[simp] theorem wait_busy (s : State) : (wait s).busy = true := rfl
@[simp] theorem wait_req (s : State) : (wait s).req = s.req := rfl
@[simp] theorem wait_buf (s : State) : (wait s).buf = s.buf := rfl
@[simp] theorem wait_resp (s : State) : (wait s).resp = s.resp := rfl
@[simp] theorem wait_fillResp (s : State) : (wait s).fillResp = s.fillResp := rfl
@[simp] theorem wait_cmds (s : State) : (wait s).cmds = s.cmds := rfl
@[simp] theorem wait_tick (s : State) : (wait s).tick = s.tick := rfl

@[simp] theorem beginProduce_fsm (r : Request) (s : State) : (beginProduce r s).fsm = s.fsm := rfl
@[simp] theorem beginProduce_ctype (r : Request) (s : State) : (beginProduce r s).ctype = s.ctype := rfl
@[simp] theorem beginProduce_csize (r : Request) (s : State) : (beginProduce r s).csize = s.csize := rfl
@[simp] theorem beginProduce_coff (r : Request) (s : State) : (beginProduce r s).coff = s.coff := rfl
@[simp] theorem beginProduce_win (r : Request) (s : State) : (beginProduce r s).win = s.win := rfl
@[simp] theorem beginProduce_wp (r : Request) (s : State) : (beginProduce r s).wp = s.wp := rfl
@[simp] theorem beginProduce_hist (r : Request) (s : State) : (beginProduce r s).hist = s.hist := rfl
@[simp] theorem beginProduce_src (r : Request) (s : State) : (beginProduce r s).src = s.src := rfl
@[simp] theorem beginProduce_inPos (r : Request) (s : State) : (beginProduce r s).inPos = s.inPos := rfl
@[simp] theorem beginProduce_outCount (r : Request) (s : State) : (beginProduce r s).outCount = s.outCount := rfl
@[simp] theorem beginProduce_live (r : Request) (s : State) : (beginProduce r s).live = s.live := rfl
@[simp] theorem beginProduce_busy (r : Request) (s : State) : (beginProduce r s).busy = s.busy := rfl
@[simp] theorem beginProduce_req (r : Request) (s : State) : (beginProduce r s).req = r := rfl
@[simp] theorem beginProduce_buf (r : Request) (s : State) : (beginProduce r s).buf = s.buf := rfl
@[simp] theorem beginProduce_resp (r : Request) (s : State) : (beginProduce r s).resp = none := rfl
@[simp] theorem beginProduce_fillResp (r : Request) (s : State) : (beginProduce r s).fillResp = s.fillResp := rfl
@[simp] theorem beginProduce_cmds (r : Request) (s : State) : (beginProduce r s).cmds = s.cmds := rfl
@[simp] theorem beginProduce_tick (r : Request) (s : State) : (beginProduce r s).tick = s.tick := rfl

@[simp] theorem issue_fsm (c : Command) (s : State) : (State.issue c s).fsm = s.fsm := rfl
@[simp] theorem issue_ctype (c : Command) (s : State) : (State.issue c s).ctype = s.ctype := rfl
@[simp] theorem issue_csize (c : Command) (s : State) : (State.issue c s).csize = s.csize := rfl
@[simp] theorem issue_coff (c : Command) (s : State) : (State.issue c s).coff = s.coff := rfl
@[simp] theorem issue_win (c : Command) (s : State) : (State.issue c s).win = s.win := rfl
@[simp] theorem issue_wp (c : Command) (s : State) : (State.issue c s).wp = s.wp := rfl
@[simp] theorem issue_hist (c : Command) (s : State) : (State.issue c s).hist = s.hist := rfl
@[simp] theorem issue_src (c : Command) (s : State) : (State.issue c s).src = s.src := rfl
@[simp] theorem issue_inPos (c : Command) (s : State) : (State.issue c s).inPos = s.inPos := rfl
@[simp] theorem issue_outCount (c : Command) (s : State) : (State.issue c s).outCount = s.outCount := rfl
@[simp] theorem issue_live (c : Command) (s : State) : (State.issue c s).live = s.live := rfl
@[simp] theorem issue_busy (c : Command) (s : State) : (State.issue c s).busy = s.busy := rfl
@[simp] theorem issue_req (c : Command) (s : State) : (State.issue c s).req = s.req := rfl
@[simp] theorem issue_buf (c : Command) (s : State) : (State.issue c s).buf = s.buf := rfl
@[simp] theorem issue_resp (c : Command) (s : State) : (State.issue c s).resp = s.resp := rfl
@[simp] theorem issue_fillResp (c : Command) (s : State) : (State.issue c s).fillResp = s.fillResp := rfl
@[simp] theorem issue_cmds (c : Command) (s : State) : (State.issue c s).cmds = [c] := rfl
@[simp] theorem issue_tick (c : Command) (s : State) : (State.issue c s).tick = s.tick := rfl

@[simp] theorem adoptPlain_fsm (size : Nat) (s : State) : (adoptPlain size s).fsm = .active := rfl
@[simp] theorem adoptPlain_ctype (size : Nat) (s : State) : (adoptPlain size s).ctype = .plain := rfl
@[simp] theorem adoptPlain_csize (size : Nat) (s : State) : (adoptPlain size s).csize = BitVec.ofNat 8 size := rfl
@[simp] theorem adoptPlain_coff (size : Nat) (s : State) : (adoptPlain size s).coff = s.coff := rfl
@[simp] theorem adoptPlain_win (size : Nat) (s : State) : (adoptPlain size s).win = s.win := rfl
@[simp] theorem adoptPlain_wp (size : Nat) (s : State) : (adoptPlain size s).wp = s.wp := rfl
@[simp] theorem adoptPlain_hist (size : Nat) (s : State) : (adoptPlain size s).hist = s.hist := rfl
@[simp] theorem adoptPlain_src (size : Nat) (s : State) : (adoptPlain size s).src = s.src := rfl
@[simp] theorem adoptPlain_inPos (size : Nat) (s : State) : (adoptPlain size s).inPos = s.inPos := rfl
@[simp] theorem adoptPlain_outCount (size : Nat) (s : State) : (adoptPlain size s).outCount = s.outCount := rfl
@[simp] theorem adoptPlain_live (size : Nat) (s : State) : (adoptPlain size s).live = s.live := rfl
@[simp] theorem adoptPlain_busy (size : Nat) (s : State) : (adoptPlain size s).busy = s.busy := rfl
@[simp] theorem adoptPlain_req (size : Nat) (s : State) : (adoptPlain size s).req = s.req := rfl
@[simp] theorem adoptPlain_buf (size : Nat) (s : State) : (adoptPlain size s).buf = s.buf := rfl
@[simp] theorem adoptPlain_resp (size : Nat) (s : State) : (adoptPlain size s).resp = s.resp := rfl
@[simp] theorem adoptPlain_fillResp (size : Nat) (s : State) : (adoptPlain size s).fillResp = s.fillResp := rfl
@[simp] theorem adoptPlain_cmds (size : Nat) (s : State) : (adoptPlain size s).cmds = s.cmds := rfl
@[simp] theorem adoptPlain_tick (size : Nat) (s : State) : (adoptPlain size s).tick = s.tick := rfl

@[simp] theorem adoptRun_fsm (k : CType) (size off : Nat) (s : State) : (adoptRun k size off s).fsm = .active := rfl
@[simp] theorem adoptRun_ctype (k : CType) (size off : Nat) (s : State) : (adoptRun k size off s).ctype = k := rfl
@[simp] theorem adoptRun_csize (k : CType) (size off : Nat) (s : State) : (adoptRun k size off s).csize = BitVec.ofNat 8 size := rfl
@[simp] theorem adoptRun_coff (k : CType) (size off : Nat) (s : State) : (adoptRun k size off s).coff = BitVec.ofNat 16 off := rfl
@[simp] theorem adoptRun_win (k : CType) (size off : Nat) (s : State) : (adoptRun k size off s).win = s.win := rfl
@[simp] theorem adoptRun_wp (k : CType) (size off : Nat) (s : State) : (adoptRun k size off s).wp = s.wp := rfl
@[simp] theorem adoptRun_hist (k : CType) (size off : Nat) (s : State) : (adoptRun k size off s).hist = s.hist := rfl
@[simp] theorem adoptRun_src (k : CType) (size off : Nat) (s : State) : (adoptRun k size off s).src = s.src := rfl
@[simp] theorem adoptRun_inPos (k : CType) (size off : Nat) (s : State) : (adoptRun k size off s).inPos = s.inPos := rfl
@[simp] theorem adoptRun_outCount (k : CType) (size off : Nat) (s : State) : (adoptRun k size off s).outCount = s.outCount := rfl
@[simp] theorem adoptRun_live (k : CType) (size off : Nat) (s : State) : (adoptRun k size off s).live = s.live := rfl
@[simp] theorem adoptRun_busy (k : CType) (size off : Nat) (s : State) : (adoptRun k size off s).busy = s.busy := rfl
@[simp] theorem adoptRun_req (k : CType) (size off : Nat) (s : State) : (adoptRun k size off s).req = s.req := rfl
@[simp] theorem adoptRun_buf (k : CType) (size off : Nat) (s : State) : (adoptRun k size off s).buf = s.buf := rfl
@[simp] theorem adoptRun_resp (k : CType) (size off : Nat) (s : State) : (adoptRun k size off s).resp = s.resp := rfl
@[simp] theorem adoptRun_fillResp (k : CType) (size off : Nat) (s : State) : (adoptRun k size off s).fillResp = s.fillResp := rfl
@[simp] theorem adoptRun_cmds (k : CType) (size off : Nat) (s : State) : (adoptRun k size off s).cmds = s.cmds := rfl
@[simp] theorem adoptRun_tick (k : CType) (size off : Nat) (s : State) : (adoptRun k size off s).tick = s.tick := rfl

@[simp] theorem finishCall_fsm (n : Nat) (s : State) : (finishCall n s).fsm = if s.csize.toNat - n = 0 then .noChunk else s.fsm := rfl
@[simp] theorem finishCall_ctype (n : Nat) (s : State) : (finishCall n s).ctype = s.ctype := rfl
@[simp] theorem finishCall_csize (n : Nat) (s : State) : (finishCall n s).csize = BitVec.ofNat 8 (s.csize.toNat - n) := rfl
@[simp] theorem finishCall_coff (n : Nat) (s : State) : (finishCall n s).coff = s.coff := rfl
@[simp] theorem finishCall_win (n : Nat) (s : State) : (finishCall n s).win = s.win := rfl
@[simp] theorem finishCall_wp (n : Nat) (s : State) : (finishCall n s).wp = s.wp := rfl
@[simp] theorem finishCall_hist (n : Nat) (s : State) : (finishCall n s).hist = s.hist := rfl
@[simp] theorem finishCall_src (n : Nat) (s : State) : (finishCall n s).src = s.src := rfl
@[simp] theorem finishCall_inPos (n : Nat) (s : State) : (finishCall n s).inPos = s.inPos := rfl
@[simp] theorem finishCall_outCount (n : Nat) (s : State) : (finishCall n s).outCount = s.outCount := rfl
@[simp] theorem finishCall_live (n : Nat) (s : State) : (finishCall n s).live = s.live := rfl
@[simp] theorem finishCall_busy (n : Nat) (s : State) : (finishCall n s).busy = s.busy := rfl
@[simp] theorem finishCall_req (n : Nat) (s : State) : (finishCall n s).req = s.req := rfl
@[simp] theorem finishCall_buf (n : Nat) (s : State) : (finishCall n s).buf = s.buf := rfl
@[simp] theorem finishCall_resp (n : Nat) (s : State) : (finishCall n s).resp = some (.ok n) := rfl
@[simp] theorem finishCall_fillResp (n : Nat) (s : State) : (finishCall n s).fillResp = s.fillResp := rfl
@[simp] theorem finishCall_cmds (n : Nat) (s : State) : (finishCall n s).cmds = s.cmds := rfl
@[simp] theorem finishCall_tick (n : Nat) (s : State) : (finishCall n s).tick = s.tick := rfl

@[simp] theorem winPush_fsm (v : Byte) (s : State) : (winPush v s).fsm = s.fsm := rfl
@[simp] theorem winPush_ctype (v : Byte) (s : State) : (winPush v s).ctype = s.ctype := rfl
@[simp] theorem winPush_csize (v : Byte) (s : State) : (winPush v s).csize = s.csize := rfl
@[simp] theorem winPush_coff (v : Byte) (s : State) : (winPush v s).coff = s.coff := rfl
@[simp] theorem winPush_win (v : Byte) (s : State) : (winPush v s).win = s.win.write s.wp.toNat v := rfl
@[simp] theorem winPush_wp (v : Byte) (s : State) : (winPush v s).wp = s.wp + 1#16 := rfl
@[simp] theorem winPush_hist (v : Byte) (s : State) : (winPush v s).hist = BitVec.ofNat 17 (min (s.hist.toNat + 1) Config.windowSize) := rfl
@[simp] theorem winPush_src (v : Byte) (s : State) : (winPush v s).src = s.src := rfl
@[simp] theorem winPush_inPos (v : Byte) (s : State) : (winPush v s).inPos = s.inPos := rfl
@[simp] theorem winPush_outCount (v : Byte) (s : State) : (winPush v s).outCount = s.outCount + 1 := rfl
@[simp] theorem winPush_live (v : Byte) (s : State) : (winPush v s).live = s.live := rfl
@[simp] theorem winPush_busy (v : Byte) (s : State) : (winPush v s).busy = s.busy := rfl
@[simp] theorem winPush_req (v : Byte) (s : State) : (winPush v s).req = s.req := rfl
@[simp] theorem winPush_buf (v : Byte) (s : State) : (winPush v s).buf = s.buf := rfl
@[simp] theorem winPush_resp (v : Byte) (s : State) : (winPush v s).resp = s.resp := rfl
@[simp] theorem winPush_fillResp (v : Byte) (s : State) : (winPush v s).fillResp = s.fillResp := rfl
@[simp] theorem winPush_cmds (v : Byte) (s : State) : (winPush v s).cmds = s.cmds := rfl
@[simp] theorem winPush_tick (v : Byte) (s : State) : (winPush v s).tick = s.tick := rfl

@[simp] theorem bufWrite_fsm (i : Nat) (v : Byte) (s : State) : (bufWrite i v s).fsm = s.fsm := rfl
@[simp] theorem bufWrite_ctype (i : Nat) (v : Byte) (s : State) : (bufWrite i v s).ctype = s.ctype := rfl
@[simp] theorem bufWrite_csize (i : Nat) (v : Byte) (s : State) : (bufWrite i v s).csize = s.csize := rfl
@[simp] theorem bufWrite_coff (i : Nat) (v : Byte) (s : State) : (bufWrite i v s).coff = s.coff := rfl
@[simp] theorem bufWrite_win (i : Nat) (v : Byte) (s : State) : (bufWrite i v s).win = s.win := rfl
@[simp] theorem bufWrite_wp (i : Nat) (v : Byte) (s : State) : (bufWrite i v s).wp = s.wp := rfl
@[simp] theorem bufWrite_hist (i : Nat) (v : Byte) (s : State) : (bufWrite i v s).hist = s.hist := rfl
@[simp] theorem bufWrite_src (i : Nat) (v : Byte) (s : State) : (bufWrite i v s).src = s.src := rfl
@[simp] theorem bufWrite_inPos (i : Nat) (v : Byte) (s : State) : (bufWrite i v s).inPos = s.inPos := rfl
@[simp] theorem bufWrite_outCount (i : Nat) (v : Byte) (s : State) : (bufWrite i v s).outCount = s.outCount := rfl
@[simp] theorem bufWrite_live (i : Nat) (v : Byte) (s : State) : (bufWrite i v s).live = s.live := rfl
@[simp] theorem bufWrite_busy (i : Nat) (v : Byte) (s : State) : (bufWrite i v s).busy = s.busy := rfl
@[simp] theorem bufWrite_req (i : Nat) (v : Byte) (s : State) : (bufWrite i v s).req = s.req := rfl
@[simp] theorem bufWrite_buf (i : Nat) (v : Byte) (s : State) : (bufWrite i v s).buf = s.buf.write (s.req.base + i) v := rfl
@[simp] theorem bufWrite_resp (i : Nat) (v : Byte) (s : State) : (bufWrite i v s).resp = s.resp := rfl
@[simp] theorem bufWrite_fillResp (i : Nat) (v : Byte) (s : State) : (bufWrite i v s).fillResp = s.fillResp := rfl
@[simp] theorem bufWrite_cmds (i : Nat) (v : Byte) (s : State) : (bufWrite i v s).cmds = s.cmds := rfl
@[simp] theorem bufWrite_tick (i : Nat) (v : Byte) (s : State) : (bufWrite i v s).tick = s.tick := rfl

@[simp] theorem enterError_fsm (e : ErrorKind) (s : State) : (enterError e s).fsm = .poisoned := rfl
@[simp] theorem enterError_win (e : ErrorKind) (s : State) : (enterError e s).win = [] := rfl
@[simp] theorem enterError_src (e : ErrorKind) (s : State) : (enterError e s).src = s.src := rfl
@[simp] theorem enterError_live (e : ErrorKind) (s : State) : (enterError e s).live = s.live := rfl
@[simp] theorem enterError_busy (e : ErrorKind) (s : State) : (enterError e s).busy = s.busy := rfl
@[simp] theorem enterError_req (e : ErrorKind) (s : State) : (enterError e s).req = s.req := rfl
@[simp] theorem enterError_buf (e : ErrorKind) (s : State) : (enterError e s).buf = s.buf.forget s.req.base s.req.len := rfl
@[simp] theorem enterError_resp (e : ErrorKind) (s : State) : (enterError e s).resp = some (.error e) := rfl
@[simp] theorem enterError_fillResp (e : ErrorKind) (s : State) : (enterError e s).fillResp = s.fillResp := rfl
@[simp] theorem enterError_cmds (e : ErrorKind) (s : State) : (enterError e s).cmds = s.cmds := rfl
@[simp] theorem enterError_tick (e : ErrorKind) (s : State) : (enterError e s).tick = s.tick + 1 := rfl

@[simp] theorem create_fsm (c : Source) (s : State) : (create c s).fsm = .noChunk := rfl
@[simp] theorem create_win (c : Source) (s : State) : (create c s).win = [] := rfl
@[simp] theorem create_wp (c : Source) (s : State) : (create c s).wp = 0#16 := rfl
@[simp] theorem create_hist (c : Source) (s : State) : (create c s).hist = 0#17 := rfl
@[simp] theorem create_src (c : Source) (s : State) : (create c s).src = c := rfl
@[simp] theorem create_inPos (c : Source) (s : State) : (create c s).inPos = 0 := rfl
@[simp] theorem create_outCount (c : Source) (s : State) : (create c s).outCount = 0 := rfl
@[simp] theorem create_live (c : Source) (s : State) : (create c s).live = true := rfl
@[simp] theorem create_busy (c : Source) (s : State) : (create c s).busy = false := rfl
@[simp] theorem create_req (c : Source) (s : State) : (create c s).req = s.req := rfl
@[simp] theorem create_buf (c : Source) (s : State) : (create c s).buf = s.buf := rfl
@[simp] theorem create_resp (c : Source) (s : State) : (create c s).resp = none := rfl
@[simp] theorem create_fillResp (c : Source) (s : State) : (create c s).fillResp = s.fillResp := rfl
@[simp] theorem create_cmds (c : Source) (s : State) : (create c s).cmds = s.cmds := rfl
@[simp] theorem create_tick (c : Source) (s : State) : (create c s).tick = s.tick + 1 := rfl

@[simp] theorem drop_win (s : State) : (drop s).win = [] := rfl
@[simp] theorem drop_src (s : State) : (drop s).src = Source.unbound := rfl
@[simp] theorem drop_live (s : State) : (drop s).live = false := rfl
@[simp] theorem drop_busy (s : State) : (drop s).busy = false := rfl
@[simp] theorem drop_req (s : State) : (drop s).req = s.req := rfl
@[simp] theorem drop_buf (s : State) : (drop s).buf = s.buf := rfl
@[simp] theorem drop_resp (s : State) : (drop s).resp = none := rfl
@[simp] theorem drop_fillResp (s : State) : (drop s).fillResp = s.fillResp := rfl
@[simp] theorem drop_cmds (s : State) : (drop s).cmds = s.cmds := rfl
@[simp] theorem drop_tick (s : State) : (drop s).tick = s.tick + 1 := rfl

end Sys2Proof.Machine
end

