-- ==== Sys2Proof/Laws/Ops.lean ====
section
/-! SUPPORT. Sys2Proof/Laws/Ops.lean: what each primitive can do, said once. -/

namespace Sys2Proof.Machine

theorem State.length_remaining (s : State) : s.remaining.length = s.src.bytes.length - s.inPos := by
  simp [State.remaining]

/-- A pull with a byte left answers it and moves the cursor by 1 (R56). -/
theorem srcRead_byte {s : State} {v : Byte} {rest : List Byte} (h : s.remaining = v :: rest) :
    srcRead s = (.byte v, { s with inPos := s.inPos + 1 }) := by
  have hv : s.src.bytes[s.inPos]? = some v := by
    have := congrArg (fun l => l[0]?) h
    simpa [State.remaining] using this
  simp [srcRead, hv]

/-- After that pull the rest of the source remains. -/
theorem remaining_tail {s : State} {v : Byte} {rest : List Byte} (h : s.remaining = v :: rest) :
    State.remaining { s with inPos := s.inPos + 1 } = rest := by
  have := congrArg (List.drop 1) h
  simpa [State.remaining, List.drop_drop] using this

/-- With no byte left the terminator answers and nothing moves (R56, R57). -/
theorem srcRead_nil {s : State} (h : s.remaining = []) :
    srcRead s = (match s.src.term with | .eos => .eos | .fault => .fault | .never => .unanswered, s) := by
  have hlen : s.src.bytes.length ≤ s.inPos := by simpa [State.remaining] using h
  simp only [srcRead, List.getElem?_eq_none hlen]
  cases s.src.term <;> rfl

/-- A pull inside a chunk with a byte left. -/
theorem pull_byte {s : State} {v : Byte} {rest : List Byte} (h : s.remaining = v :: rest) :
    pull s = .done v { s with inPos := s.inPos + 1 } := by
  simp [pull, srcRead_byte h]

/-- A pull inside a chunk with no byte left (R181, R183, R58). -/
theorem pull_nil {s : State} (h : s.remaining = []) :
    pull s = match s.src.term with
      | .eos => .raised .truncatedInput s
      | .fault => .raised .sourceFault s
      | .never => .blocked s := by
  simp only [pull, srcRead_nil h]
  cases s.src.term <;> rfl

/-- Everything a pull inside a chunk can do. -/
theorem pull_cases (s : State) :
    (∃ v rest, s.remaining = v :: rest ∧ pull s = .done v { s with inPos := s.inPos + 1 }) ∨
    (s.remaining = [] ∧ s.src.term = .eos ∧ pull s = .raised .truncatedInput s) ∨
    (s.remaining = [] ∧ s.src.term = .fault ∧ pull s = .raised .sourceFault s) ∨
    (s.remaining = [] ∧ s.src.term = .never ∧ pull s = .blocked s) := by
  cases h : s.remaining with
  | cons v rest => exact .inl ⟨v, rest, rfl, pull_byte h⟩
  | nil =>
    have hp := pull_nil h
    cases ht : s.src.term <;> simp [ht] at hp ⊢ <;> exact hp

@[simp] theorem andThen_done {α β : Type} (a : α) (s : State) (k : α → State → Flow β) :
    (Flow.done a s).andThen k = k a s := rfl

@[simp] theorem andThen_raised {α β : Type} (e : ErrorKind) (s : State) (k : α → State → Flow β) :
    (Flow.raised e s).andThen k = .raised e s := rfl

@[simp] theorem andThen_blocked {α β : Type} (s : State) (k : α → State → Flow β) :
    (Flow.blocked s).andThen k = .blocked s := rfl

/-- WinGet refuses exactly the distances not held (R53). -/
theorem winGet_eq_none (d : BitVec 16) (s : State) : winGet d s = none ↔ s.hist.toNat ≤ d.toNat := by
  simp [winGet]

/-- WinGet of a distance that is held. -/
theorem winGet_of_lt {d : BitVec 16} {s : State} (h : d.toNat < s.hist.toNat) :
    winGet d s = some (winByte s (winIndex s.wp d).toNat) := by
  simp [winGet, h]

/-- WinGet looks at the history count, the pointer, WIN and the epoch, at nothing else. -/
theorem winGet_congr {s t : State} (d : BitVec 16) (h1 : t.hist = s.hist) (h2 : t.wp = s.wp) (h3 : t.win = s.win)
    (h4 : t.tick = s.tick) : winGet d t = winGet d s := by
  simp [winGet, winByte, h1, h2, h3, h4]

/-- The physical index of a distance, as a number (R28). -/
theorem winIndex_toNat (wp d : BitVec 16) : (winIndex wp d).toNat = (wp.toNat + 65535 - d.toNat) % 65536 := by
  have := d.isLt
  simp only [winIndex, BitVec.toNat_sub]
  simp
  omega

/-- The history count after a push (R54). -/
theorem winPush_hist_toNat (v : Byte) (s : State) :
    (winPush v s).hist.toNat = min (s.hist.toNat + 1) Config.windowSize := by
  have := s.hist.isLt
  simp only [winPush_hist, Config.windowSize, BitVec.toNat_ofNat]
  omega

/-- The write pointer after a push (R28). -/
theorem winPush_wp_toNat (v : Byte) (s : State) : (winPush v s).wp.toNat = (s.wp.toNat + 1) % 65536 := by
  simp [BitVec.toNat_add]

/-- Error entry leaves the host's memory outside the failing call's buffer as it was (R190, R191). -/
theorem enterError_callFailed (e : ErrorKind) (s : State) : CallFailed e s (enterError e s) where
  fsm_eq := rfl
  resp_eq := rfl
  untouched := by
    intro a ha
    simp only [enterError_buf, Memory.read_forget]
    rw [if_neg (by omega)]
  interface := ⟨rfl, rfl, rfl, rfl, rfl⟩
  busy_eq := rfl

theorem SameInterface.refl (s : State) : SameInterface s s := ⟨rfl, rfl, rfl, rfl, rfl⟩

theorem SameInterface.trans {s t u : State} (h : SameInterface s t) (k : SameInterface t u) : SameInterface s u :=
  ⟨k.src_eq.trans h.src_eq, k.live_eq.trans h.live_eq, k.req_eq.trans h.req_eq, k.fillResp_eq.trans h.fillResp_eq,
    k.cmds_eq.trans h.cmds_eq⟩

theorem Written.refl (s : State) : Written s s [] := ⟨by simp, fun _ _ => rfl⟩

theorem Pushed.refl (s : State) : Pushed s s [] where
  written := by simp
  untouched := fun _ _ => rfl
  wp_eq := by have := s.wp.isLt; simp [Config.windowSize]; omega
  hist_eq := by simp
  outCount_eq := by simp

/-- One more byte at the front of what a call has pushed: the induction step over the positions of a call. -/
theorem Pushed.cons {s t : State} {v : Byte} {out : List Byte} (h : Pushed (winPush v s) t out)
    (hlen : out.length < Config.windowSize) : Pushed s t (v :: out) where
  written := by
    intro k hk
    have hwp := winPush_wp_toNat v s
    have hb := s.wp.isLt
    simp only [Config.windowSize] at *
    cases k with
    | zero =>
      rw [h.untouched _ (by intro k hk; simp only [Config.windowSize]; omega)]
      simp [Nat.mod_eq_of_lt hb]
    | succ k =>
      have := h.written k (by simpa using hk)
      simp only [Config.windowSize] at this
      rw [hwp] at this
      simp only [List.getElem_cons_succ]
      rw [← this]
      congr 1
      omega
  untouched := by
    intro i hi
    have hwp := winPush_wp_toNat v s
    have hb := s.wp.isLt
    have h0 := hi 0 (by simp)
    simp only [Config.windowSize] at *
    rw [h.untouched i (by
      intro k hk
      have := hi (k + 1) (by simpa using hk)
      simp only [Config.windowSize]
      omega)]
    simp only [winPush_win]
    exact Memory.read_write_other _ _ (by omega)
  wp_eq := by
    have := h.wp_eq
    have hwp := winPush_wp_toNat v s
    simp only [Config.windowSize, List.length_cons] at *
    omega
  hist_eq := by
    have := h.hist_eq
    have hh := winPush_hist_toNat v s
    simp only [Config.windowSize, List.length_cons] at *
    split at this <;> simp <;> omega
  outCount_eq := by
    have := h.outCount_eq
    simp at this ⊢
    omega

end Sys2Proof.Machine
end

