-- ==== Sys2Proof/Laws/Chunk.lean ====
section
/-! SUPPORT. Sys2Proof/Laws/Chunk.lean: the production steps, said once: what reading a payload, extending the window and
copying a run do, whether they end well or not. -/

namespace Sys2Proof.Machine

/-- The host's memory after `out` has been written from index `i` of the buffer on. -/
structure WrittenAt (i : Nat) (s t : State) (out : List Byte) : Prop where
  bytes : ∀ k (h : k < out.length), t.buf.read (s.req.base + i + k) = some out[k]
  untouched : ∀ a, (a < s.req.base + i ∨ s.req.base + i + out.length ≤ a) → t.buf.read a = s.buf.read a

theorem WrittenAt.refl (i : Nat) (s : State) : WrittenAt i s s [] := ⟨by simp, fun _ _ => rfl⟩

/-- One more byte at the front. -/
theorem WrittenAt.cons {i : Nat} {s s1 t : State} {v : Byte} {out : List Byte} (h : WrittenAt (i + 1) s1 t out)
    (hreq : s1.req = s.req) (hbuf : s1.buf = s.buf.write (s.req.base + i) v) : WrittenAt i s t (v :: out) where
  bytes := by
    intro k hk
    cases k with
    | zero => rw [h.untouched _ (by rw [hreq]; omega), hbuf]; simp
    | succ k =>
      have := h.bytes k (by simpa using hk)
      rw [hreq] at this
      simp only [List.getElem_cons_succ]
      rw [← this]
      congr 1
      omega
  untouched := by
    intro a ha
    simp only [List.length_cons] at ha
    rw [h.untouched a (by rw [hreq]; omega), hbuf]
    exact Memory.read_write_other _ _ (by omega)

theorem WrittenAt.written {s t : State} {out : List Byte} (h : WrittenAt 0 s t out) : Written s t out :=
  ⟨fun k hk => by simpa using h.bytes k hk, fun a ha => h.untouched a (by simpa using ha)⟩

/-- Reading a payload that is there: the bytes in stream order, the cursor past them, each written to the buffer; nothing
else changes (R59, R120). -/
theorem readPayload_done (n i : Nat) (s : State) (h : n ≤ s.remaining.length) :
    ∃ m, readPayload n i s = .done (s.remaining.take n) { s with inPos := s.inPos + n, buf := m } ∧
      WrittenAt i s { s with inPos := s.inPos + n, buf := m } (s.remaining.take n) := by
  induction n generalizing i s with
  | zero => exact ⟨s.buf, by simp [readPayload], by simpa using WrittenAt.refl i s⟩
  | succ n ih =>
    cases hr : s.remaining with
    | nil => simp [hr] at h
    | cons v rest =>
      have htail := remaining_tail hr
      have hrem : (bufWrite i v { s with inPos := s.inPos + 1 }).remaining = rest := htail
      obtain ⟨m, hm, hw⟩ := ih (i + 1) (bufWrite i v { s with inPos := s.inPos + 1 }) (by
        rw [hrem]; rw [hr] at h; simpa using h)
      rw [hrem] at hm hw
      refine ⟨m, ?_, ?_⟩
      · simp only [readPayload, pull_byte hr, andThen_done, hm, List.take_succ_cons]
        simp [bufWrite, Nat.add_assoc, Nat.add_comm 1 n]
      · have := WrittenAt.cons (s := s) hw rfl rfl
        simpa [List.take_succ_cons] using ⟨this.bytes, this.untouched⟩

/-- Reading a payload that is not all there: every byte there is consumed and written to the buffer from index `i` on,
nothing else changes, and the terminator decides (R59, R120). -/
theorem readPayload_short (n i : Nat) (s : State) (h : s.remaining.length < n) :
    ∃ m, WrittenAt i s { s with inPos := s.inPos + s.remaining.length, buf := m } s.remaining ∧
      readPayload n i s = match s.src.term with
        | .eos => .raised .truncatedInput { s with inPos := s.inPos + s.remaining.length, buf := m }
        | .fault => .raised .sourceFault { s with inPos := s.inPos + s.remaining.length, buf := m }
        | .never => .blocked { s with inPos := s.inPos + s.remaining.length, buf := m } := by
  induction n generalizing i s with
  | zero => simp at h
  | succ n ih =>
    cases hr : s.remaining with
    | nil =>
      refine ⟨s.buf, by simpa using WrittenAt.refl i s, ?_⟩
      simp only [readPayload, pull_nil hr]
      cases s.src.term <;> rfl
    | cons v rest =>
      have hrem : (bufWrite i v { s with inPos := s.inPos + 1 }).remaining = rest := remaining_tail hr
      obtain ⟨m, hw, he⟩ := ih (i + 1) (bufWrite i v { s with inPos := s.inPos + 1 }) (by
        rw [hrem]; rw [hr] at h; simpa using h)
      rw [hrem] at hw he
      refine ⟨m, ?_, ?_⟩
      · have := WrittenAt.cons (s := s) hw rfl rfl
        exact ⟨this.bytes, this.untouched⟩
      · simp only [readPayload, pull_byte hr, andThen_done, he]
        cases ht : s.src.term <;> simp [bufWrite, ht, Nat.add_assoc, Nat.add_comm 1]

/-- Extending the window by a block pushes its bytes in order and changes nothing else (R55). -/
theorem winExtend_pushed (vs : List Byte) (s : State) (h : vs.length ≤ Config.windowSize) :
    ∃ w p q c, winExtend vs s = { s with win := w, wp := p, hist := q, outCount := c } ∧
      Pushed s { s with win := w, wp := p, hist := q, outCount := c } vs := by
  induction vs generalizing s with
  | nil => exact ⟨s.win, s.wp, s.hist, s.outCount, rfl, Pushed.refl s⟩
  | cons v vs ih =>
    obtain ⟨w, p, q, c, he, hp⟩ := ih (winPush v s) (by simp only [List.length_cons] at h; omega)
    refine ⟨w, p, q, c, ?_, ?_⟩
    · simp only [winExtend, he]; rfl
    · exact Pushed.cons (s := s) hp (by simp only [List.length_cons] at h; omega)

/-- The byte just pushed is at distance 0 (R54). -/
theorem winGet_push_zero (v : Byte) (s : State) : winGet 0#16 (winPush v s) = some v := by
  have hh := winPush_hist_toNat v s
  rw [winGet_of_lt (by rw [hh]; simp [Config.windowSize])]
  have hi : winIndex (winPush v s).wp 0#16 = s.wp := by simp [winIndex]
  rw [hi]
  simp [winByte]

/-- A push moves the history one place older (R54). -/
theorem winGet_push_succ (v : Byte) (s : State) (d : BitVec 16) (hd : d.toNat < 65535) :
    winGet (d + 1#16) (winPush v s) = winGet d s := by
  have hd1 : (d + 1#16).toNat = d.toNat + 1 := by simp [BitVec.toNat_add]; omega
  have hi : winIndex (winPush v s).wp (d + 1#16) = winIndex s.wp d := by
    simp only [winIndex, winPush_wp]
    bv_omega
  have hh := winPush_hist_toNat v s
  simp only [Config.windowSize] at hh
  have hne : (winIndex s.wp d).toNat ≠ s.wp.toNat := by
    have := s.wp.isLt
    rw [winIndex_toNat]
    omega
  unfold winGet
  rw [hi, hd1, hh]
  by_cases hc : s.hist.toNat ≤ d.toNat
  · rw [if_pos (by omega), if_pos hc]
  · rw [if_neg (by omega), if_neg hc]
    simp [winByte, Memory.read_write_other _ _ hne]

/-- Copying a run whose offset the history holds: `n` bytes, each written and pushed; nothing else changes (R121, R124,
R125). -/
theorem runStep_done (n i : Nat) (s : State) (hn : n ≤ Config.windowSize) (h : s.coff.toNat < s.hist.toNat) :
    ∃ w p q c m out,
      runStep n i s = .done () { s with win := w, wp := p, hist := q, outCount := c, buf := m } ∧
      out.length = n ∧
      Pushed s { s with win := w, wp := p, hist := q, outCount := c, buf := m } out ∧
      WrittenAt i s { s with win := w, wp := p, hist := q, outCount := c, buf := m } out ∧
      RunBytes s.coff s out := by
  induction n generalizing i s with
  | zero =>
    exact ⟨s.win, s.wp, s.hist, s.outCount, s.buf, [], rfl, rfl, Pushed.refl s, WrittenAt.refl i s, by
      intro k hk; simp at hk⟩
  | succ n ih =>
    obtain ⟨v, hv⟩ : ∃ v, winGet s.coff s = some v := ⟨_, winGet_of_lt h⟩
    have hc := s.coff.isLt
    have hh := winPush_hist_toNat v (bufWrite i v s)
    simp only [Config.windowSize, bufWrite_hist] at hh
    obtain ⟨w, p, q, c, m, out, he, hl, hp, hw, hb⟩ := ih (i + 1) (winPush v (bufWrite i v s)) (by omega) (by
      rw [hh]; simp; omega)
    refine ⟨w, p, q, c, m, v :: out, ?_, by simp [hl], ?_, ?_, ?_⟩
    · simp only [runStep, hv, he]; rfl
    · have := Pushed.cons (s := bufWrite i v s) hp (by omega)
      exact ⟨this.written, this.untouched, this.wp_eq, this.hist_eq, this.outCount_eq⟩
    · exact WrittenAt.cons (s := s) hw rfl rfl
    · have shift : ∀ e : BitVec 16, e.toNat < 65535 →
          winGet (e + 1#16) (winPush v (bufWrite i v s)) = winGet e s := by
        intro e he
        rw [winGet_push_succ v (bufWrite i v s) e he]
        exact winGet_congr e rfl rfl rfl rfl
      intro k hk
      cases k with
      | zero => exact ⟨fun _ => by simpa using hv, fun hlt => by omega⟩
      | succ k =>
        have hk' : k < out.length := by simpa using hk
        obtain ⟨h1, h2⟩ := hb k hk'
        simp only [winPush_coff, bufWrite_coff] at h1 h2
        refine ⟨fun hle => ?_, fun hlt => ?_⟩
        · have e1 := h1 (by omega)
          rw [show BitVec.ofNat 16 (s.coff.toNat - k) = BitVec.ofNat 16 (s.coff.toNat - (k + 1)) + 1#16 by
            apply BitVec.eq_of_toNat_eq; simp [BitVec.toNat_add]; omega] at e1
          rw [shift _ (by simp; omega)] at e1
          simpa using e1
        · rcases Nat.lt_or_ge s.coff.toNat k with hlt' | hge
          · have e2 := h2 hlt'
            simp only [List.getElem_cons_succ, e2]
            simp only [show k + 1 - 1 - s.coff.toNat = (k - 1 - s.coff.toNat) + 1 by omega, List.getElem_cons_succ]
          · have hk0 : k = s.coff.toNat := by omega
            have e1 := h1 (by omega)
            rw [show BitVec.ofNat 16 (s.coff.toNat - k) = 0#16 by simp [hk0], winGet_push_zero] at e1
            simp only [Option.some.injEq] at e1
            simp only [List.getElem_cons_succ, show k + 1 - 1 - s.coff.toNat = 0 by omega, List.getElem_cons_zero]
            exact e1.symm

/-- Copying a run whose offset the history does not hold raises INVALID_OFFSET at its first byte and changes nothing
(R121, R125). -/
theorem runStep_refused (n i : Nat) (s : State) (h : s.hist.toNat ≤ s.coff.toNat) :
    runStep (n + 1) i s = .raised .invalidOffset s := by
  simp [runStep, (winGet_eq_none s.coff s).mpr h]

end Sys2Proof.Machine
end

