-- ==== Sys2Proof/Laws/Parser.lean ====
section
/-! SUPPORT. Sys2Proof/Laws/Parser.lean: what the parser and the three meanings can do, said once. -/

namespace Sys2Proof.Machine

/-- Moving the cursor moves what remains. -/
theorem remaining_advance (s : State) (n : Nat) : State.remaining { s with inPos := s.inPos + n } = s.remaining.drop n := by
  simp [State.remaining, List.drop_drop]

/-- A parsed header is followed by the rest of what the decoder was given. -/
theorem decode_rest {bs rest : List Byte} {i : Instr} (h : decode bs = .ok i rest) : rest = bs.drop i.headerLength := by
  cases bs with
  | nil => simp [decode] at h
  | cons b0 bs =>
    cases ht : headerType b0 with
    | plain => simp only [decode, ht, Decoded.ok.injEq] at h; simp [← h.1, ← h.2, Instr.headerLength]
    | run2 =>
      cases bs with
      | nil => simp [decode, ht] at h
      | cons b1 bs => simp only [decode, ht, Decoded.ok.injEq] at h; simp [← h.1, ← h.2, Instr.headerLength]
    | run3 =>
      rcases bs with _ | ⟨b1, _ | ⟨b2, bs⟩⟩
      · simp [decode, ht] at h
      · simp [decode, ht] at h
      · simp only [decode, ht, Decoded.ok.injEq] at h; simp [← h.1, ← h.2, Instr.headerLength]

/-- A parsed header lies within what the decoder was given. -/
theorem decode_length {bs rest : List Byte} {i : Instr} (h : decode bs = .ok i rest) : i.headerLength ≤ bs.length := by
  cases bs with
  | nil => simp [decode] at h
  | cons b0 bs =>
    cases ht : headerType b0 with
    | plain => simp only [decode, ht, Decoded.ok.injEq] at h; simp [← h.1, Instr.headerLength]
    | run2 =>
      cases bs with
      | nil => simp [decode, ht] at h
      | cons b1 bs => simp only [decode, ht, Decoded.ok.injEq] at h; simp [← h.1, Instr.headerLength]
    | run3 =>
      rcases bs with _ | ⟨b1, _ | ⟨b2, bs⟩⟩
      · simp [decode, ht] at h
      · simp [decode, ht] at h
      · simp only [decode, ht, Decoded.ok.injEq] at h; simp [← h.1, Instr.headerLength]

/-- Where the decoder reads an instruction, the parser pulls exactly its header (R106). -/
theorem parseNext_ok {s : State} {i : Instr} {rest : List Byte} (h : decode s.remaining = .ok i rest) :
    parseNext s = .done (some i) { s with inPos := s.inPos + i.headerLength } := by
  cases hr : s.remaining with
  | nil => simp [hr, decode] at h
  | cons b0 bs =>
    have t0 := remaining_tail hr
    rw [hr] at h
    simp only [parseNext, srcRead_byte hr]
    cases ht : headerType b0 with
    | plain => simp only [decode, ht, Decoded.ok.injEq] at h; simp [← h.1, Instr.headerLength]
    | run2 =>
      cases bs with
      | nil => simp [decode, ht] at h
      | cons b1 bs =>
        simp only [decode, ht, Decoded.ok.injEq] at h
        simp [pull_byte t0, ← h.1, Instr.headerLength]
    | run3 =>
      rcases bs with _ | ⟨b1, _ | ⟨b2, bs⟩⟩
      · simp [decode, ht] at h
      · simp [decode, ht] at h
      · simp only [decode, ht, Decoded.ok.injEq] at h
        have t1 := remaining_tail t0
        simp [pull_byte t0, pull_byte t1, ← h.1, Instr.headerLength]

/-- With nothing left at a header, the terminator decides (R102, R183, R58). -/
theorem parseNext_nil {s : State} (h : s.remaining = []) :
    parseNext s = match s.src.term with
      | .eos => .done none s
      | .fault => .raised .sourceFault s
      | .never => .blocked s := by
  simp only [parseNext, srcRead_nil h]
  cases s.src.term <;> rfl

/-- With a header cut short, every byte of it is consumed and the terminator decides (R102, R106). -/
theorem parseNext_truncated {s : State} (h : decode s.remaining = .reject .truncated) :
    parseNext s = match s.src.term with
      | .eos => .raised .truncatedInput { s with inPos := s.inPos + s.remaining.length }
      | .fault => .raised .sourceFault { s with inPos := s.inPos + s.remaining.length }
      | .never => .blocked { s with inPos := s.inPos + s.remaining.length } := by
  cases hr : s.remaining with
  | nil => simp [hr, decode] at h
  | cons b0 bs =>
    have t0 := remaining_tail hr
    rw [hr] at h
    simp only [parseNext, srcRead_byte hr]
    cases ht : headerType b0 with
    | plain => simp [decode, ht] at h
    | run2 =>
      cases bs with
      | nil => simp only [pull_nil t0]; cases s.src.term <;> simp
      | cons b1 bs => simp [decode, ht] at h
    | run3 =>
      rcases bs with _ | ⟨b1, _ | ⟨b2, bs⟩⟩
      · simp only [pull_nil t0]; cases s.src.term <;> simp
      · have t1 := remaining_tail t0
        simp only [pull_byte t0, andThen_done, pull_nil t1]; cases s.src.term <;> simp
      · simp [decode, ht] at h

/-- The three ways a call ends. -/
theorem conclude_cases (n : Nat) (x : Flow Unit) :
    (∃ s, x = .done () s ∧ conclude n x = .next (finishCall n s)) ∨
    (∃ e s, x = .raised e s ∧ conclude n x = .next (enterError e s)) ∨
    (∃ s, x = .blocked s ∧ conclude n x = .next (wait s)) := by
  cases x with
  | done a s => exact .inl ⟨s, rfl, rfl⟩
  | raised e s => exact .inr (.inl ⟨e, s, rfl, rfl⟩)
  | blocked s => exact .inr (.inr ⟨s, rfl, rfl⟩)

end Sys2Proof.Machine
end

