-- ==== Sys2Proof/Laws/Call.lean ====
section
/-! SUPPORT. Sys2Proof/Laws/Call.lean: everything one call can do with an active chunk, said once for a Plain chunk and once
for a run chunk. -/

namespace Sys2Proof.Machine

/-- Steps 4 and 5 after a production step that pushed and wrote `out`, the count of this call (R145, R146). -/
theorem finishCall_done {s t : State} {out : List Byte} (hfsm : s.fsm = .active) (hlen : out.length = produceCount s)
    (hp : Pushed s t out) (hw : WrittenAt 0 s t out) (hi : SameInterface s t) (hfsm' : t.fsm = s.fsm)
    (hcsize : t.csize = s.csize) (hbusy : t.busy = s.busy) (htick : t.tick = s.tick) :
    CallDone s.csize.toNat s (finishCall (produceCount s) t) out where
  count := hlen
  owes := by
    have := s.csize.isLt
    simp only [finishCall_csize, hcsize, hlen, BitVec.toNat_ofNat]
    omega
  fsm_eq := by
    simp only [finishCall_fsm, hcsize, hfsm', hfsm, hlen]
    have : produceCount s ≤ s.csize.toNat := Nat.min_le_left _ _
    split <;> split <;> first | rfl | omega
  resp_eq := by simp [hlen]
  window := ⟨hp.written, hp.untouched, hp.wp_eq, hp.hist_eq, hp.outCount_eq⟩
  buffer := ⟨hw.written.bytes, hw.written.untouched⟩
  interface := ⟨hi.src_eq, hi.live_eq, hi.req_eq, hi.fillResp_eq, hi.cmds_eq⟩
  busy_eq := hbusy
  tick_eq := htick

/-- Error entry after bytes have been pulled and written within BUF: outside BUF the host's memory is as before the call
(R190, R191). -/
theorem callFailed_of_written {s : State} {out : List Byte} (e : ErrorKind) (p : Nat) (m : Memory)
    (hw : WrittenAt 0 s { s with inPos := p, buf := m } out) (hlen : out.length ≤ s.req.len) :
    CallFailed e s (enterError e { s with inPos := p, buf := m }) where
  fsm_eq := rfl
  resp_eq := rfl
  untouched := fun a ha =>
    ((enterError_callFailed e { s with inPos := p, buf := m }).untouched a ha).trans (hw.untouched a (by omega))
  interface := ⟨rfl, rfl, rfl, rfl, rfl⟩
  busy_eq := rfl

/-- A call with an active Plain chunk: done when its payload is there, else ended by the source (R120). -/
theorem continueLit_cases {s : State} (hfsm : s.fsm = .active) :
    (produceCount s ≤ s.remaining.length ∧ ∃ t, continueLit s = .next t ∧
      CallDone s.csize.toNat s t (s.remaining.take (produceCount s)) ∧
      t.ctype = s.ctype ∧ t.coff = s.coff ∧ t.inPos = s.inPos + produceCount s) ∨
    (s.remaining.length < produceCount s ∧ ∃ t, continueLit s = .next t ∧
      EndsInside .active s.ctype s.csize.toNat s.remaining s t) := by
  have hle : produceCount s ≤ 255 := by
    have := s.csize.isLt
    have : produceCount s ≤ s.csize.toNat := Nat.min_le_left _ _
    omega
  rcases Nat.lt_or_ge s.remaining.length (produceCount s) with h | h
  · right
    refine ⟨h, ?_⟩
    obtain ⟨m, hw, he⟩ := readPayload_short (produceCount s) 0 s h
    have hlen : produceCount s ≤ s.req.len := Nat.min_le_right _ _
    unfold EndsInside
    cases ht : s.src.term with
    | eos =>
      rw [ht] at he
      exact ⟨enterError .truncatedInput { s with inPos := s.inPos + s.remaining.length, buf := m },
        by simp only [continueLit, plainStep, he, andThen_raised, conclude], callFailed_of_written _ _ m hw (by omega)⟩
    | fault =>
      rw [ht] at he
      exact ⟨enterError .sourceFault { s with inPos := s.inPos + s.remaining.length, buf := m },
        by simp only [continueLit, plainStep, he, andThen_raised, conclude], callFailed_of_written _ _ m hw (by omega)⟩
    | never =>
      rw [ht] at he
      exact ⟨wait { s with inPos := s.inPos + s.remaining.length, buf := m },
        by simp only [continueLit, plainStep, he, andThen_blocked, conclude],
        { fsm_eq := hfsm, ctype_eq := rfl, owes := rfl, coff_eq := rfl, win_eq := rfl, wp_eq := rfl, hist_eq := rfl,
          outCount_eq := rfl, cursor := rfl, buffer := ⟨hw.written.bytes, hw.written.untouched⟩,
          interface := ⟨rfl, rfl, rfl, rfl, rfl⟩, busy_eq := rfl, resp_eq := rfl, tick_eq := rfl }⟩
  · left
    refine ⟨h, ?_⟩
    obtain ⟨m, he, hw⟩ := readPayload_done (produceCount s) 0 s h
    obtain ⟨w, p, q, c, hx, hp⟩ := winExtend_pushed (s.remaining.take (produceCount s))
      { s with inPos := s.inPos + produceCount s, buf := m } (by simp [Config.windowSize]; omega)
    refine ⟨finishCall (produceCount s)
        { s with inPos := s.inPos + produceCount s, buf := m, win := w, wp := p, hist := q, outCount := c },
      by simp only [continueLit, plainStep, he, andThen_done, hx, conclude], ?_, rfl, rfl, rfl⟩
    exact finishCall_done hfsm (by simp [h]) ⟨hp.written, hp.untouched, hp.wp_eq, hp.hist_eq, hp.outCount_eq⟩
      ⟨hw.bytes, hw.untouched⟩ ⟨rfl, rfl, rfl, rfl, rfl⟩ rfl rfl rfl rfl

/-- Steps 3 to 5 of a call with an active run chunk, the same for RUN2 and RUN3. -/
theorem conclude_runStep_cases {s : State} (hfsm : s.fsm = .active) :
    ((produceCount s = 0 ∨ s.coff.toNat < s.hist.toNat) ∧ ∃ t out,
      conclude (produceCount s) (runStep (produceCount s) 0 s) = .next t ∧ CallDone s.csize.toNat s t out ∧
      RunBytes s.coff s out ∧ t.ctype = s.ctype ∧ t.coff = s.coff ∧ t.inPos = s.inPos) ∨
    ((1 ≤ produceCount s ∧ s.hist.toNat ≤ s.coff.toNat) ∧ ∃ t,
      conclude (produceCount s) (runStep (produceCount s) 0 s) = .next t ∧ CallFailed .invalidOffset s t) := by
  have hle : produceCount s ≤ 255 := by
    have := s.csize.isLt
    have : produceCount s ≤ s.csize.toNat := Nat.min_le_left _ _
    omega
  rcases Nat.eq_zero_or_pos (produceCount s) with h0 | hpos
  · left
    refine ⟨.inl h0, finishCall (produceCount s) s, [], by simp [h0, runStep, conclude], ?_, ?_, rfl, rfl, rfl⟩
    · exact finishCall_done hfsm (by simp [h0]) (Pushed.refl s) (WrittenAt.refl 0 s) (SameInterface.refl s) rfl rfl rfl rfl
    · intro k hk; simp at hk
  · rcases Nat.lt_or_ge s.coff.toNat s.hist.toNat with h | h
    · left
      obtain ⟨w, p, q, c, m, out, he, hl, hp, hw, hb⟩ :=
        runStep_done (produceCount s) 0 s (by simp only [Config.windowSize]; omega) h
      refine ⟨.inr h, finishCall (produceCount s) { s with win := w, wp := p, hist := q, outCount := c, buf := m }, out,
        by simp only [he, conclude], ?_, hb, rfl, rfl, rfl⟩
      exact finishCall_done hfsm hl hp hw ⟨rfl, rfl, rfl, rfl, rfl⟩ rfl rfl rfl rfl
    · right
      obtain ⟨n, hn⟩ : ∃ n, produceCount s = n + 1 := ⟨produceCount s - 1, by omega⟩
      refine ⟨⟨hpos, h⟩, enterError .invalidOffset s, ?_, enterError_callFailed _ s⟩
      rw [hn, runStep_refused n 0 s h]
      rfl

end Sys2Proof.Machine
end

