-- ==== Sys2Proof/Laws/Produce.lean ====
section
/-! SUPPORT. Sys2Proof/Laws/Produce.lean: everything a PRODUCE can do, said once, so that no later proof unfolds it. -/

namespace Sys2Proof.Machine

/-- The state right after an instruction's adoption (R144). -/
def adopted (i : Instr) (s : State) : State :=
  match i with
  | .run2 size off => adoptRun .run2 size off s
  | .run3 size off => adoptRun .run3 size off s
  | .lit size => adoptPlain size s

/-- An instruction's meaning is its adoption and then the call an active chunk makes. -/
theorem exec_eq_continue (i : Instr) (s : State) : exec i s = continueChunk (adopted i s) := by
  cases i <;> rfl

@[simp] theorem adopted_fsm (i : Instr) (s : State) : (adopted i s).fsm = .active := by cases i <;> rfl

@[simp] theorem adopted_ctype (i : Instr) (s : State) : (adopted i s).ctype = i.ctype := by cases i <;> rfl

@[simp] theorem adopted_csize (i : Instr) (s : State) : (adopted i s).csize = BitVec.ofNat 8 i.size := by
  cases i <;> rfl

/-- Adoption writes the chunk registers and `fsm`, nothing else (R144). -/
theorem adopted_frame (i : Instr) (s : State) :
    { adopted i s with fsm := s.fsm, ctype := s.ctype, csize := s.csize, coff := s.coff } = s := by
  cases i <;> rfl

/-- What the decoder reads has a size in its type's range, and a RUN2 offset of at most 10 bits (R24, R25, R108). -/
theorem decode_ranges {bs rest : List Byte} {i : Instr} (h : decode bs = .ok i rest) :
    1 ≤ i.size ∧ i.size ≤ maxSize i.ctype ∧ ∀ size off, i = .run2 size off → off ≤ 1023 := by
  cases bs with
  | nil => simp [decode] at h
  | cons b0 bs =>
    cases ht : headerType b0 with
    | plain =>
      simp only [decode, ht, Decoded.ok.injEq] at h
      have := (b0.extractLsb' 0 7).isLt
      simp only [← h.1, Instr.size, Instr.ctype, maxSize, plainSize]
      exact ⟨by omega, by omega, by simp⟩
    | run2 =>
      cases bs with
      | nil => simp [decode, ht] at h
      | cons b1 bs =>
        simp only [decode, ht, Decoded.ok.injEq] at h
        have := (b0.extractLsb' 2 4).isLt
        have ho := (b0.extractLsb' 0 2 ++ b1).isLt
        simp only [← h.1, Instr.size, Instr.ctype, maxSize, run2Size]
        refine ⟨by omega, by omega, ?_⟩
        intro size off he
        simp only [Instr.run2.injEq, run2Offset] at he
        omega
    | run3 =>
      rcases bs with _ | ⟨b1, _ | ⟨b2, bs⟩⟩
      · simp [decode, ht] at h
      · simp [decode, ht] at h
      · simp only [decode, ht, Decoded.ok.injEq] at h
        have := (b0.extractLsb' 0 6).isLt
        simp only [← h.1, Instr.size, Instr.ctype, maxSize, run3Size]
        exact ⟨by omega, by omega, by simp⟩

/-- Everything a call with an active chunk can do: it is done; or its payload was not all there; or its offset was not
held. -/
theorem continueChunk_cases {s : State} (hfsm : s.fsm = .active) :
    ∃ t, continueChunk s = .next t ∧
      ((∃ out, CallDone s.csize.toNat s t out ∧ t.ctype = s.ctype ∧ t.coff = s.coff ∧
        ((s.ctype = .plain ∧ out = s.remaining.take (produceCount s) ∧ produceCount s ≤ s.remaining.length ∧
            t.inPos = s.inPos + produceCount s) ∨
          (s.ctype ≠ .plain ∧ RunBytes s.coff s out ∧ t.inPos = s.inPos ∧
            (produceCount s = 0 ∨ s.coff.toNat < s.hist.toNat)))) ∨
      (s.ctype = .plain ∧ s.remaining.length < produceCount s ∧
        EndsInside .active s.ctype s.csize.toNat s.remaining s t) ∨
      (s.ctype ≠ .plain ∧ 1 ≤ produceCount s ∧ s.hist.toNat ≤ s.coff.toNat ∧ CallFailed .invalidOffset s t)) := by
  have run : s.ctype ≠ .plain → continueChunk s = conclude (produceCount s) (runStep (produceCount s) 0 s) := by
    intro h
    cases hc : s.ctype <;> simp [continueChunk, hc, continueRun2, continueRun3] at h ⊢
  rcases Decidable.eq_or_ne s.ctype .plain with hc | hc
  · have he : continueChunk s = continueLit s := by simp [continueChunk, hc]
    rw [he]
    rcases continueLit_cases hfsm with ⟨h1, t, h2, h3, h4, h5, h6⟩ | ⟨h1, t, h2, h3⟩
    · exact ⟨t, h2, .inl ⟨_, h3, h4, h5, .inl ⟨hc, rfl, h1, h6⟩⟩⟩
    · exact ⟨t, h2, .inr (.inl ⟨hc, h1, h3⟩)⟩
  · rw [run hc]
    rcases conclude_runStep_cases hfsm with ⟨h1, t, out, h2, h3, h4, h5, h6, h7⟩ | ⟨⟨h1, h2⟩, t, h3, h4⟩
    · exact ⟨t, h2, .inl ⟨out, h3, h5, h6, .inr ⟨hc, h4, h7, h1⟩⟩⟩
    · exact ⟨t, h3, .inr (.inr ⟨hc, h1, h2, h4⟩)⟩

/-- Everything a PRODUCE can do (R141): the answer of EOF; the clean end; a header that is not whole, with the cursor past
the bytes of it that were there; an active chunk's call, either one found active or one just adopted; or the fault. -/
theorem produce_cases (r : Request) (s : State) :
    (s.fsm = .eof ∧ produce r s = .next { s with req := r, resp := some (.ok 0) }) ∨
    (s.fsm = .poisoned ∧ produce r s = .fault .poisonedAccess) ∨
    (s.fsm = .active ∧ produce r s = continueChunk (beginProduce r s)) ∨
    (s.fsm = .noChunk ∧ s.remaining = [] ∧ s.src.term = .eos ∧
      produce r s = .next { s with req := r, resp := some (.ok 0), fsm := .eof }) ∨
    (s.fsm = .noChunk ∧ (s.remaining = [] ∨ decode s.remaining = .reject .truncated) ∧
      ((∃ e, ((e = .truncatedInput ∧ s.src.term = .eos ∧ decode s.remaining = .reject .truncated) ∨
          (e = .sourceFault ∧ s.src.term = .fault)) ∧
        produce r s = .next (enterError e { beginProduce r s with inPos := s.inPos + s.remaining.length })) ∨
      (s.src.term = .never ∧
        produce r s = .next (wait { beginProduce r s with inPos := s.inPos + s.remaining.length })))) ∨
    (s.fsm = .noChunk ∧ ∃ i rest, decode s.remaining = .ok i rest ∧
      produce r s = continueChunk (adopted i { beginProduce r s with inPos := s.inPos + i.headerLength })) := by
  have hr : State.remaining (beginProduce r s) = s.remaining := rfl
  have ht : (beginProduce r s).src.term = s.src.term := rfl
  cases hf : s.fsm with
  | eof => exact .inl ⟨rfl, by simp only [produce, hf]; rw [← hf]; rfl⟩
  | poisoned => exact .inr (.inl ⟨rfl, by simp only [produce, hf]⟩)
  | active => exact .inr (.inr (.inl ⟨rfl, by simp only [produce, hf]⟩))
  | noChunk =>
    have hs : produce r s = startChunk (beginProduce r s) := by simp only [produce, hf]
    rw [hs]
    cases hd : decode s.remaining with
    | ok i rest =>
      refine .inr (.inr (.inr (.inr (.inr ⟨rfl, i, rest, rfl, ?_⟩))))
      simp only [startChunk, parseNext_ok (s := beginProduce r s) (by rw [hr]; exact hd), exec_eq_continue]
      rfl
    | reject why =>
      cases why with
      | noHeader =>
        have hn : s.remaining = [] := by
          rcases hx : s.remaining with _ | ⟨b0, bs⟩
          · rfl
          · exfalso
            rw [hx] at hd
            simp only [decode] at hd
            split at hd <;> simp at hd
        simp only [startChunk, parseNext_nil (hr.trans hn), ht]
        cases hterm : s.src.term with
        | eos => exact .inr (.inr (.inr (.inl ⟨trivial, hn, rfl, rfl⟩)))
        | fault =>
          refine .inr (.inr (.inr (.inr (.inl ⟨trivial, .inl hn, .inl ⟨.sourceFault, .inr ⟨rfl, rfl⟩, ?_⟩⟩))))
          simp [hn, beginProduce]
        | never =>
          refine .inr (.inr (.inr (.inr (.inl ⟨trivial, .inl hn, .inr ⟨rfl, ?_⟩⟩))))
          simp [hn, beginProduce]
      | truncated =>
        simp only [startChunk, parseNext_truncated (s := beginProduce r s) (by rw [hr]; exact hd), ht]
        cases hterm : s.src.term with
        | eos => exact .inr (.inr (.inr (.inr (.inl ⟨trivial, .inr trivial, .inl ⟨.truncatedInput, .inl ⟨rfl, rfl, trivial⟩, rfl⟩⟩))))
        | fault => exact .inr (.inr (.inr (.inr (.inl ⟨trivial, .inr trivial, .inl ⟨.sourceFault, .inr ⟨rfl, rfl⟩, rfl⟩⟩))))
        | never => exact .inr (.inr (.inr (.inr (.inl ⟨trivial, .inr trivial, .inr ⟨rfl, rfl⟩⟩))))

end Sys2Proof.Machine
end

