-- ==== Sys2Proof/Laws/Canonical.lean ====
section
/-! SUPPORT. Sys2Proof/Laws/Canonical.lean: every operation of the machine keeps both memories canonical and WIN inside its
65536 indices. -/

namespace Sys2Proof.Machine

/-- Both memories are canonical and WIN has no index beyond 65535. -/
structure Canonical (s : State) : Prop where
  win_wf : s.win.wf
  buf_wf : s.buf.wf
  win_bound : ∀ c ∈ s.win, c.1 < Config.windowSize

/-- A part of a command leaves the memories canonical, however it ends. -/
def Flow.KeepsCanonical {α : Type} : Flow α → Prop
  | .done _ s => Canonical s
  | .raised _ s => Canonical s
  | .blocked s => Canonical s

/-- Only the two memories matter. -/
theorem Canonical.congr {s t : State} (h : Canonical s) (hw : t.win = s.win) (hb : t.buf = s.buf) : Canonical t :=
  ⟨hw ▸ h.win_wf, hb ▸ h.buf_wf, hw ▸ h.win_bound⟩

/-- A command that empties WIN and forgets some of the host's memory. -/
theorem Canonical.of_empty {t : State} (hw : t.win = []) (hb : t.buf.wf) : Canonical t :=
  ⟨hw ▸ List.Pairwise.nil, hb, by simp [hw]⟩

theorem Canonical.winPush {s : State} (v : Byte) (h : Canonical s) : Canonical (winPush v s) where
  win_wf := Memory.wf_write _ v h.win_wf
  buf_wf := h.buf_wf
  win_bound := by
    intro c hc
    rcases Memory.mem_write hc with rfl | hc
    · exact s.wp.isLt
    · exact h.win_bound c hc

theorem Canonical.bufWrite {s : State} (i : Nat) (v : Byte) (h : Canonical s) : Canonical (bufWrite i v s) :=
  ⟨h.win_wf, Memory.wf_write _ v h.buf_wf, h.win_bound⟩

theorem Canonical.enterError {s : State} (e : ErrorKind) (h : Canonical s) : Canonical (enterError e s) :=
  .of_empty rfl (Memory.wf_forget _ _ h.buf_wf)

theorem Canonical.winExtend {s : State} (vs : List Byte) (h : Canonical s) : Canonical (winExtend vs s) := by
  induction vs generalizing s with
  | nil => exact h
  | cons v vs ih => exact ih (h.winPush v)

theorem Canonical.pull {s : State} (h : Canonical s) : (pull s).KeepsCanonical := by
  rcases pull_cases s with ⟨v, rest, _, he⟩ | ⟨_, _, he⟩ | ⟨_, _, he⟩ | ⟨_, _, he⟩ <;> rw [he]
  · exact h.congr rfl rfl
  all_goals exact h

theorem Flow.KeepsCanonical.andThen {α β : Type} {x : Flow α} {k : α → State → Flow β} (h : x.KeepsCanonical)
    (hk : ∀ a s, Canonical s → (k a s).KeepsCanonical) : (x.andThen k).KeepsCanonical := by
  cases x with
  | done a s => exact hk a s h
  | raised e s => exact h
  | blocked s => exact h

theorem Canonical.readPayload {s : State} (n i : Nat) (h : Canonical s) : (readPayload n i s).KeepsCanonical := by
  induction n generalizing i s with
  | zero => exact h
  | succ n ih => exact h.pull.andThen fun v s1 h1 => (ih _ (h1.bufWrite i v)).andThen fun _ _ h2 => h2

theorem Canonical.runStep {s : State} (n i : Nat) (h : Canonical s) : (runStep n i s).KeepsCanonical := by
  induction n generalizing i s with
  | zero => exact h
  | succ n ih =>
    unfold Sys2Proof.Machine.runStep
    split
    · exact h
    · exact ih _ ((h.bufWrite i _).winPush _)

theorem Canonical.conclude {n : Nat} {x : Flow Unit} {t : State} (hx : x.KeepsCanonical) (h : conclude n x = .next t) :
    Canonical t := by
  rcases conclude_cases n x with ⟨s, rfl, he⟩ | ⟨e, s, rfl, he⟩ | ⟨s, rfl, he⟩ <;> rw [he] at h <;>
    simp only [Host.Outcome.next.injEq] at h <;> subst h
  · exact Canonical.congr hx rfl rfl
  · exact Canonical.enterError e hx
  · exact Canonical.congr hx rfl rfl

theorem Canonical.continueChunk {s t : State} (hs : Canonical s) (h : continueChunk s = .next t) : Canonical t := by
  unfold Sys2Proof.Machine.continueChunk at h
  split at h
  · exact Canonical.conclude (hs.runStep _ _) h
  · exact Canonical.conclude (hs.runStep _ _) h
  · refine Canonical.conclude ((hs.readPayload _ _).andThen ?_) h
    intro vs s1 h1
    exact h1.winExtend vs

/-- Every PRODUCE keeps the canonical form. -/
theorem Canonical.produce {s t : State} {r : Request} (hs : Canonical s) (h : produce r s = .next t) : Canonical t := by
  rcases produce_cases r s with ⟨_, he⟩ | ⟨_, he⟩ | ⟨_, he⟩ | ⟨_, _, _, he⟩ | ⟨_, _, ⟨e, _, he⟩ | ⟨_, he⟩⟩ | ⟨_, i, _, _, he⟩ <;>
    rw [he] at h
  · simp only [Host.Outcome.next.injEq] at h; subst h; exact hs.congr rfl rfl
  · simp at h
  · exact (hs.congr rfl rfl : Canonical (beginProduce r s)).continueChunk h
  · simp only [Host.Outcome.next.injEq] at h; subst h; exact hs.congr rfl rfl
  · simp only [Host.Outcome.next.injEq] at h; subst h; exact Canonical.enterError e (hs.congr rfl rfl)
  · simp only [Host.Outcome.next.injEq] at h; subst h; exact hs.congr rfl rfl
  · refine Canonical.continueChunk (hs.congr ?_ ?_) h <;> cases i <;> rfl

/-- The reset state's memories are canonical. -/
theorem reset_canonical : Canonical State.reset := .of_empty rfl List.Pairwise.nil

end Sys2Proof.Machine
end

