-- ==== Sys2Proof/Laws/PerInstr.lean ====
section
/-! SUPPORT. Sys2Proof/Laws/PerInstr.lean: the statements made for all instructions, one lemma per constructor. -/

namespace Sys2Proof.Laws

/-- The encoder writes exactly the header bytes that R80 gives the chunk type. -/
def HeaderLength.Statement (i : Instr) : Prop := (encode i).length = i.headerLength

theorem HeaderLength.run2 (size off : Nat) : HeaderLength.Statement (.run2 size off) := rfl

theorem HeaderLength.run3 (size off : Nat) : HeaderLength.Statement (.run3 size off) := rfl

theorem HeaderLength.lit (size : Nat) : HeaderLength.Statement (.lit size) := rfl

/-- The first byte the encoder writes for a well-formed instruction is classified as its chunk type (R81, R93). -/
def HeaderClass.Statement (i : Instr) : Prop :=
  i.wellFormed = true → (encode i).head?.map headerType = some i.ctype

theorem HeaderClass.run2 (size off : Nat) : HeaderClass.Statement (.run2 size off) := by
  intro h
  simp only [Instr.wellFormed, Bool.and_eq_true, decide_eq_true_eq] at h
  have key : ∀ a < 16, ∀ b < 4, headerType (BitVec.ofNat 8 ((a <<< 2) ||| b)) = .run2 := by decide
  simpa [encode, Instr.ctype] using
    key (size - 3) (by omega) (off >>> 8) (by rw [Nat.shiftRight_eq_div_pow]; omega)

theorem HeaderClass.run3 (size off : Nat) : HeaderClass.Statement (.run3 size off) := by
  intro h
  simp only [Instr.wellFormed, Bool.and_eq_true, decide_eq_true_eq] at h
  have key : ∀ a < 64, headerType (BitVec.ofNat 8 (0x40 ||| a)) = .run3 := by decide
  simpa [encode, Instr.ctype] using key (size - 4) (by omega)

theorem HeaderClass.lit (size : Nat) : HeaderClass.Statement (.lit size) := by
  intro h
  simp only [Instr.wellFormed, Bool.and_eq_true, decide_eq_true_eq] at h
  have key : ∀ a < 128, headerType (BitVec.ofNat 8 (0x80 ||| a)) = .plain := by decide
  simpa [encode, Instr.ctype] using key (size - 1) (by omega)

end Sys2Proof.Laws
end

