-- ==== Sys2Proof/Tests/Slice0.lean ====
section
/-! SUPPORT. Sys2Proof/Tests/Slice0.lean: the model's own tests. Expected values are the spec's (95_test_vectors.md, the
vector named in each comment), and the witnesses show that the hypotheses of the statements can be met. -/

namespace Sys2Proof.Tests

open Sys2Proof.Machine

/-! ### The well-formedness checks, each refusing an ill-formed term -/

theorem test_wf_lit_size_low : (Instr.lit 0).wellFormed = false := by decide
theorem test_wf_lit_size_high : (Instr.lit 129).wellFormed = false := by decide
theorem test_wf_run2_size_low : (Instr.run2 2 0).wellFormed = false := by decide
theorem test_wf_run2_size_high : (Instr.run2 19 0).wellFormed = false := by decide
theorem test_wf_run2_offset : (Instr.run2 3 1024).wellFormed = false := by decide
theorem test_wf_run3_size_low : (Instr.run3 3 0).wellFormed = false := by decide
theorem test_wf_run3_size_high : (Instr.run3 68 0).wellFormed = false := by decide
theorem test_wf_run3_offset : (Instr.run3 4 65536).wellFormed = false := by decide
theorem test_wf_line_payload : ChunkLine.wellFormed { instr := .lit 2, payload := [0xAA#8] } = false := by decide
theorem test_wf_line_run_payload : ChunkLine.wellFormed { instr := .run2 3 0, payload := [0xAA#8] } = false := by decide
theorem test_wf_bounds : [Instr.lit 1, .lit 128, .run2 3 0, .run2 18 1023, .run3 4 0, .run3 67 65535].all
    Instr.wellFormed = true := by decide

/-! ### Decoding: headers written out bit by bit from 30_encoding.md's patterns -/

/-- `1nnnnnnn`, n = 1000000: vector E13. -/
theorem test_decode_lit : decode [0b11000000#8] = .ok (.lit 65) [] := by decide
/-- `1nnnnnnn`, n = 1111111: vector E14. -/
theorem test_decode_lit_max : decode [0b11111111#8, 0x55#8] = .ok (.lit 128) [0x55#8] := by decide
/-- `00ssssoo oooooooo`, s = 0001, o = 0000000001: vector E4. -/
theorem test_decode_run2 : decode [0b00000100#8, 0b00000001#8] = .ok (.run2 4 1) [] := by decide
/-- `00ssssoo oooooooo`, s = 0000, o = 1111111111: vector E3. -/
theorem test_decode_run2_offset : decode [0b00000011#8, 0b11111111#8] = .ok (.run2 3 1023) [] := by decide
/-- `01ssssss oooooooo oooooooo`, s = 000001, o = 0x1234: vector E9. -/
theorem test_decode_run3 : decode [0b01000001#8, 0b00010010#8, 0b00110100#8] = .ok (.run3 5 4660) [] := by decide
/-- Vector E10. -/
theorem test_decode_run3_max : decode [0x7F#8, 0xFF#8, 0xFF#8] = .ok (.run3 67 65535) [] := by decide
/-- Vectors E17 and E19: a header cut short is rejected by name. -/
theorem test_decode_truncated :
    decode [0x00#8] = .reject .truncated ∧ decode [0x40#8, 0x00#8] = .reject .truncated := by decide
/-- Vector E15. -/
theorem test_decode_empty : decode [] = .reject .noHeader := by decide
/-- R93's example. -/
theorem test_encode_line : encodeLine { instr := .lit 4, payload := [0xFE#8, 0xED#8, 0xFA#8, 0xCE#8] } =
    [0x83#8, 0xFE#8, 0xED#8, 0xFA#8, 0xCE#8] := by decide
/-- R93's formulas, program P2's `RUN3 5, 5` and program P3's `RUN2 5, 2`. -/
theorem test_encode_runs : encode (.run3 5 5) = [0x41#8, 0x00#8, 0x05#8] ∧ encode (.run2 5 2) = [0x08#8, 0x02#8] := by
  decide

/-! ### One step on small states -/

/-- Right after CREATE, a source bound. -/
def bound (bs : List Byte) (term : Terminator) : State := { State.reset with src := { bytes := bs, term := term } }

/-- After `LIT FE, ED, FA, CE` (the first chunk of P1), with what the source has still to deliver. -/
def afterLit (bs : List Byte) (term : Terminator) : State :=
  { bound bs term with
    win := [(0, 0xFE#8), (1, 0xED#8), (2, 0xFA#8), (3, 0xCE#8)]
    wp := 4#16
    hist := 4#17
    outCount := 4 }

/-- After that chunk the RUN3 chunk `RUN3 4, 1` is active and owes two bytes. -/
def midRun : State :=
  { afterLit [] .eos with fsm := .active, ctype := .run3, csize := 2#8, coff := 1#16 }

/-- A Plain chunk that owes two bytes is active. -/
def midLit : State := { bound [0xFA#8, 0xCE#8] .eos with fsm := .active, ctype := .plain, csize := 2#8 }

/-- What the tests look at: the next state's `fsm`, response, owed size, history count and cursor, and the first five
bytes of the host's memory. -/
structure Look where
  fsm : Fsm
  resp : Option Response
  csize : Nat
  hist : Nat
  inPos : Nat
  buf : List (Option Byte)
deriving DecidableEq, Repr

/-- That look at a step's answer, if it answers a state. -/
def look (o : Host.Outcome State Fault Refusal) : Option Look :=
  match o with
  | .next t => some
    { fsm := t.fsm, resp := t.resp, csize := t.csize.toNat, hist := t.hist.toNat, inPos := t.inPos,
      buf := (List.range 5).map fun a => t.buf.read a }
  | .fault _ => none
  | .refused _ => none

/-- What is defined after an error: `fsm` and the response. -/
def lookError (o : Host.Outcome State Fault Refusal) : Option (Fsm × Option Response) :=
  match o with
  | .next t => some (t.fsm, t.resp)
  | .fault _ => none
  | .refused _ => none

/-- The state a step answers, if it answers one. -/
def next? (o : Host.Outcome State Fault Refusal) : Option State :=
  match o with
  | .next t => some t
  | .fault _ => none
  | .refused _ => none

/-- A PRODUCE of `len` bytes as one step. -/
def produceStep (len : Nat) (s : State) : Host.Outcome State Fault Refusal :=
  step (s.issue (.produce { len := len, base := 0 }))

/-- L1, first call. -/
theorem test_lit_split : look (produceStep 2 (bound [0x83#8, 0xFE#8, 0xED#8, 0xFA#8, 0xCE#8] .eos)) =
    some { fsm := .active, resp := some (.ok 2), csize := 2, hist := 2, inPos := 3,
           buf := [some 0xFE#8, some 0xED#8, none, none, none] } := by decide
/-- L4. -/
theorem test_lit_truncated : lookError (produceStep 16 (bound [0x84#8, 0xAA#8, 0xBB#8] .eos)) =
    some (.poisoned, some (.error .truncatedInput)) := by decide
/-- P1, second call. -/
theorem test_run2_repeats_last : look (produceStep 16 (afterLit [0x00#8, 0x00#8] .eos)) =
    some { fsm := .noChunk, resp := some (.ok 3), csize := 0, hist := 7, inPos := 2,
           buf := [some 0xCE#8, some 0xCE#8, some 0xCE#8, none, none] } := by decide
/-- R2d's last call: offset 4 = out_count, the smallest invalid. -/
theorem test_run2_invalid : lookError (produceStep 16 (afterLit [0x00#8, 0x04#8] .eos)) =
    some (.poisoned, some (.error .invalidOffset)) := by decide
/-- `RUN3 4, 3` after four bytes copies them (R124, as R2c with offset 3 = out_count - 1). -/
theorem test_run3_copies : look (produceStep 16 (afterLit [0x40#8, 0x00#8, 0x03#8] .eos)) =
    some { fsm := .noChunk, resp := some (.ok 4), csize := 0, hist := 8, inPos := 3,
           buf := [some 0xFE#8, some 0xED#8, some 0xFA#8, some 0xCE#8, none] } := by decide
/-- E20's header in a PRODUCE: a source failure inside the header. -/
theorem test_run3_source_fault : lookError (produceStep 16 (afterLit [0x40#8, 0x00#8] .fault)) =
    some (.poisoned, some (.error .sourceFault)) := by decide
/-- W2. -/
theorem test_empty_input : look (produceStep 16 (bound [] .eos)) =
    some { fsm := .eof, resp := some (.ok 0), csize := 0, hist := 0, inPos := 0,
           buf := [none, none, none, none, none] } := by decide
/-- R2f, first call: a zero-length call adopts the chunk and checks nothing. -/
theorem test_zero_length : look (produceStep 0 (bound [0x00#8, 0x00#8] .eos)) =
    some { fsm := .active, resp := some (.ok 0), csize := 3, hist := 0, inPos := 2,
           buf := [none, none, none, none, none] } := by decide
/-- L8: the call does not return; the block waits. -/
theorem test_blocked : (next? (produceStep 16 (bound [0x83#8, 0xAA#8] .never))).map
    (fun t => (t.busy, t.resp, t.hist.toNat)) = some (true, none, 0) := by decide
/-- F1. -/
theorem test_fill_zero : (next? (step ((bound [0x80#8] .eos).issue (.fill { len := 0, base := 0 } 0)))).map
    (fun t => (t.fillResp, t.fsm, t.inPos)) = some (some .ok, .noChunk, 0) := by decide
/-- F4's last turn: the stream is at its end and a byte is still wanted. -/
theorem test_fill_too_small : (next? (step ((afterLit [] .eos).issue (.fill { len := 5, base := 0 } 4)))).map
    (fun t => (t.fillResp, t.resp, t.fsm)) = some (some (.error .bufferTooSmall), some (.ok 0), .eof) := by decide
/-- P3, the CREATE after the error: a new run in NO_CHUNK with nothing produced. -/
theorem test_create_leaves_poisoned :
    (next? (step ({ afterLit [] .eos with fsm := .poisoned }.issue
      (.create { bytes := [0x80#8, 0x55#8], term := .eos })))).map
        (fun t => (t.fsm, t.hist.toNat, t.inPos, t.outCount)) = some (.noChunk, 0, 0, 0) := by decide

/-! ### The host's word interface -/

theorem test_word_lit : decodeTableWord 8 0xC0 = some (.lit 65) := by decide
theorem test_word_run2 : decodeTableWord 16 0x0104 = some (.run2 4 1) := by decide
theorem test_word_run3 : decodeTableWord 24 0x341241 = some (.run3 5 4660) := by decide
/-- The fetched LIT runs as the first instruction after reset: its payload bytes are the zeros above the word. -/
theorem test_fetch_lit : look (step (State.reset.withFetchWord 8 0x83)) =
    some { fsm := .noChunk, resp := some (.ok 4), csize := 0, hist := 4, inPos := 5,
           buf := [some 0#8, some 0#8, some 0#8, some 0#8, none] } := by decide
/-- W3: a run as the very first chunk fails with INVALID_OFFSET. -/
theorem test_fetch_run2 : lookError (step (State.reset.withFetchWord 16 0x0000)) =
    some (.poisoned, some (.error .invalidOffset)) := by decide
theorem test_fetch_run3 : lookError (step (State.reset.withFetchWord 24 0x060040)) =
    some (.poisoned, some (.error .invalidOffset)) := by decide

/-! ### Witnesses: the hypotheses of each statement met by a concrete state -/

/-- A state of a run in NO_CHUNK, with history, meets the invariant. -/
theorem afterLit_inv (bs : List Byte) (term : Terminator) : Inv (afterLit bs term) where
  win_wf := by simp [afterLit, Memory.wf]
  buf_wf := List.Pairwise.nil
  win_bound := by simp [afterLit, Config.windowSize]
  run := fun _ _ =>
    { hist_eq := rfl
      wp_eq := rfl
      win_written := by
        intro i
        have : (afterLit bs term).hist.toNat = 4 := rfl
        rw [this]
        simp only [afterLit, Memory.read]
        split
        · simp; omega
        · split
          · simp; omega
          · split
            · simp; omega
            · split
              · simp; omega
              · simp; omega
      active_size := by intro h; cases h
      active_offset := by intro h; cases h
      eof_ended := by intro h; cases h
      cursor_le := Nat.zero_le _ }

theorem witness_DecodeOfEncodeIsTheInstruction : ∃ i : Instr, i.wellFormed = true := ⟨.run3 67 65535, by decide⟩

theorem witness_EncodeOfDecodeIsTheBytes : ∃ bs rest i, decode bs = .ok i rest :=
  ⟨[0x3F#8, 0xFF#8, 0x01#8], [0x01#8], .run2 18 1023, by decide⟩

theorem witness_PlainSizeIsLowSevenBitsPlusOne : ∃ b0 : Byte, 0x80 ≤ b0.toNat := ⟨0x80#8, by decide⟩

theorem witness_TwoByteRunOperandsAreTheRulesFormulas : ∃ b0 : Byte, b0.toNat < 0x40 := ⟨0x3F#8, by decide⟩

theorem witness_ThreeByteRunOperandsAreTheRulesFormulas : ∃ b0 : Byte, 0x40 ≤ b0.toNat ∧ b0.toNat < 0x80 :=
  ⟨0x7F#8, by decide⟩

theorem witness_LiteralStreamDecodesToItsPayload :
    ∃ ls : List ChunkLine, ls ≠ [] ∧ ∀ l ∈ ls, l.wellFormed = true ∧ l.instr.ctype = .plain :=
  ⟨[{ instr := .lit 1, payload := [0x7A#8] }], by decide, by decide⟩

theorem witness_EncodedStreamOutputLengthIsTheSumOfSizes :
    ∃ ls : List ChunkLine, ls ≠ [] ∧ ∀ l ∈ ls, l.wellFormed = true :=
  ⟨[{ instr := .lit 1, payload := [0x7A#8] }, { instr := .run2 18 0, payload := [] }], by decide, by decide⟩

theorem witness_WinPush_distance : ∃ d : BitVec 16, d.toNat < 65535 := ⟨65534#16, by decide⟩

theorem witness_WinPush_full : ∃ s : State, s.hist.toNat = 65536 :=
  ⟨{ afterLit [] .eos with hist := 65536#17 }, by decide⟩

theorem witness_WinGet_refused : ∃ (d : BitVec 16) (s : State), s.hist.toNat ≤ d.toNat :=
  ⟨4#16, afterLit [] .eos, by decide⟩

theorem witness_WinGet_held : ∃ (d : BitVec 16) (s : State), d.toNat < s.hist.toNat := ⟨3#16, afterLit [] .eos, by decide⟩

theorem witness_a_run : ∃ s : State, Inv s ∧ s.live = true ∧ s.fsm ≠ .poisoned :=
  ⟨afterLit [] .eos, afterLit_inv _ _, rfl, by decide⟩

theorem witness_ExtendingTheWindow_inside : ∃ (vs : List Byte) (d : BitVec 16), d.toNat < vs.length :=
  ⟨[0xAA#8, 0xBB#8], 1#16, by decide⟩

theorem witness_ExtendingTheWindow_behind : ∃ (vs : List Byte) (d : BitVec 16), vs.length ≤ d.toNat :=
  ⟨[0xAA#8, 0xBB#8], 2#16, by decide⟩

theorem witness_EvictionDropsNoEncodableReference :
    ∃ (d : BitVec 16) (s : State), Inv s ∧ s.live = true ∧ s.fsm ≠ .poisoned ∧ d.toNat < s.outCount :=
  ⟨3#16, afterLit [] .eos, afterLit_inv _ _, rfl, by decide, by decide⟩

theorem witness_WindowNeverExceedsItsCapacity : ∃ s : State, Inv s := ⟨_, afterLit_inv [] .eos⟩

theorem witness_PullsAnswerTheSourceInOrder_byte : ∃ s : State, s.inPos < s.src.bytes.length :=
  ⟨bound [0x80#8] .eos, by decide⟩

theorem witness_PullsAnswerTheSourceInOrder_end : ∃ s : State, s.src.bytes.length ≤ s.inPos :=
  ⟨bound [] .fault, by decide⟩

theorem witness_LitDeliversItsPayload :
    ∃ (size : Nat) (s : State), (Instr.lit size).wellFormed = true ∧ min size s.req.len ≤ s.remaining.length :=
  ⟨2, { bound [0xAA#8, 0xBB#8] .eos with req := { len := 9, base := 0 } }, by decide, by decide⟩

/-- A LIT that owes one byte more than the source delivers, for each terminator (the arms of `EndsInside`). -/
theorem witness_LitWithoutItsPayloadEndsAsTheSourceSays : ∀ term : Terminator,
    ∃ (size : Nat) (s : State), (Instr.lit size).wellFormed = true ∧ s.remaining.length < min size s.req.len ∧
      s.src.term = term :=
  fun term => ⟨3, { bound [0xAA#8, 0xBB#8] term with req := { len := 9, base := 0 } }, by decide,
    by cases term <;> decide, rfl⟩

theorem witness_Run2CopiesFromTheHistory : ∃ (size off : Nat) (s : State),
    (Instr.run2 size off).wellFormed = true ∧ (s.req.len = 0 ∨ off < s.hist.toNat) :=
  ⟨3, 3, afterLit [] .eos, by decide, .inr (by decide)⟩

theorem witness_Run3CopiesFromTheHistory : ∃ (size off : Nat) (s : State),
    (Instr.run3 size off).wellFormed = true ∧ (s.req.len = 0 ∨ off < s.hist.toNat) :=
  ⟨67, 3, afterLit [] .eos, by decide, .inr (by decide)⟩

theorem witness_RunBeyondTheHistoryIsInvalidOffset : ∃ (i : Instr) (off : Nat) (s : State), i.wellFormed = true ∧
    (i = .run2 i.size off ∨ i = .run3 i.size off) ∧ 1 ≤ s.req.len ∧ s.hist.toNat ≤ off :=
  ⟨.run2 3 4, 4, { afterLit [] .eos with req := { len := 1, base := 0 } }, by decide, .inl rfl, by decide, by decide⟩

theorem witness_InvalidOffset_raised : ∃ n i s e t, runStep n i s = .raised e t :=
  ⟨1, 0, { afterLit [] .eos with coff := 4#16 }, .invalidOffset, _, rfl⟩

theorem witness_InvalidOffset_held : ∃ (s : State) (v : Byte), winGet s.coff s = some v ∧ Inv s ∧ s.live = true ∧
    s.fsm ≠ .poisoned :=
  ⟨afterLit [] .eos, 0xCE#8, by decide, afterLit_inv _ _, rfl, by decide⟩

theorem witness_SelfOverlap_overlapping : ∃ (i : Instr) (d : Nat) (s : State), i.wellFormed = true ∧
    (i = .run2 i.size d ∨ i = .run3 i.size d) ∧ i.size ≤ s.req.len ∧ d < s.hist.toNat ∧ d + 1 < i.size :=
  ⟨.run2 4 2, 2, { afterLit [] .eos with req := { len := 4, base := 0 } }, by decide, .inl rfl, by decide, by decide,
    by decide⟩

theorem witness_SelfOverlap_apart : ∃ (i : Instr) (d : Nat) (s : State), i.wellFormed = true ∧
    (i = .run2 i.size d ∨ i = .run3 i.size d) ∧ i.size ≤ s.req.len ∧ d < s.hist.toNat ∧ i.size ≤ d + 1 :=
  ⟨.run3 4 3, 3, { afterLit [] .eos with req := { len := 4, base := 0 } }, by decide, .inr rfl, by decide, by decide,
    by decide⟩

theorem witness_SelfOverlap_zero : ∃ (i : Instr) (s : State), i.wellFormed = true ∧
    (i = .run2 i.size 0 ∨ i = .run3 i.size 0) ∧ i.size ≤ s.req.len ∧ 0 < s.hist.toNat :=
  ⟨.run3 4 0, { afterLit [] .eos with req := { len := 4, base := 0 } }, by decide, .inr rfl, by decide, by decide⟩

theorem witness_AZeroLengthCallOnlyAdoptsTheChunk : ∃ (i : Instr) (s : State), i.wellFormed = true ∧ s.req.len = 0 :=
  ⟨.lit 128, afterLit [] .eos, by decide, rfl⟩

theorem witness_StepRunsTheDecodedInstruction : ∃ (s : State) (r : Request) (cs : List Command) (i : Instr)
    (rest : List Byte), s.cmds = .produce r :: cs ∧ s.live = true ∧ s.busy = false ∧ s.fsm = .noChunk ∧
      decode s.remaining = .ok i rest :=
  ⟨(afterLit [0x00#8, 0x03#8] .eos).issue (.produce { len := 3, base := 0 }), { len := 3, base := 0 }, [], .run2 3 3, [],
    rfl, rfl, rfl, rfl, by decide⟩

theorem witness_ProduceWithoutAWholeHeader_eos : ∃ s : State, s.fsm = .noChunk ∧ s.remaining = [] ∧ s.src.term = .eos :=
  ⟨bound [] .eos, rfl, rfl, rfl⟩

theorem witness_ProduceWithoutAWholeHeader_fault :
    ∃ s : State, s.fsm = .noChunk ∧ s.remaining = [] ∧ s.src.term = .fault := ⟨bound [] .fault, rfl, rfl, rfl⟩

theorem witness_ProduceWithoutAWholeHeader_never :
    ∃ s : State, s.fsm = .noChunk ∧ s.remaining = [] ∧ s.src.term = .never := ⟨bound [] .never, rfl, rfl, rfl⟩

theorem witness_ProduceWithoutAWholeHeader_truncated : ∀ term : Terminator,
    ∃ s : State, s.fsm = .noChunk ∧ decode s.remaining = .reject .truncated ∧ s.src.term = term :=
  fun term => ⟨bound [0x40#8, 0x00#8] term, rfl, by cases term <;> decide, rfl⟩

theorem witness_ActivePlainChunkContinues : ∃ (s : State) (r : Request), s.fsm = .active ∧ s.ctype = .plain ∧
    min s.csize.toNat r.len ≤ s.remaining.length := ⟨midLit, { len := 2, base := 2 }, rfl, rfl, by decide⟩

theorem witness_ActiveRunChunkContinues : ∃ s : State, s.fsm = .active ∧ s.ctype ≠ .plain ∧ s.coff.toNat < s.hist.toNat :=
  ⟨midRun, rfl, by decide, by decide⟩

theorem witness_ActivePlainChunk_short : ∀ term : Terminator, ∃ (s : State) (r : Request), s.fsm = .active ∧
    s.ctype = .plain ∧ s.remaining.length < min s.csize.toNat r.len ∧ s.src.term = term :=
  fun term => ⟨{ midLit with src := { bytes := [0xFA#8], term := term } }, { len := 2, base := 2 }, rfl, rfl,
    by cases term <;> decide, rfl⟩

theorem witness_ActiveRunChunk_invalid : ∃ (s : State) (r : Request), s.fsm = .active ∧ s.ctype ≠ .plain ∧
    s.hist.toNat ≤ s.coff.toNat ∧ 1 ≤ s.csize.toNat ∧ 1 ≤ r.len :=
  ⟨{ midRun with coff := 4#16 }, { len := 1, base := 0 }, rfl, by decide, by decide, by decide, by decide⟩

theorem witness_ZeroLengthProduce_active : ∃ (s : State) (r : Request), r.len = 0 ∧ s.fsm = .active ∧ 1 ≤ s.csize.toNat :=
  ⟨midRun, { len := 0, base := 0 }, rfl, rfl, by decide⟩

theorem witness_ZeroLengthProduce_parses : ∃ (s : State) (r : Request) (i : Instr) (rest : List Byte), r.len = 0 ∧
    s.fsm = .noChunk ∧ decode s.remaining = .ok i rest :=
  ⟨bound [0x00#8, 0x00#8] .eos, { len := 0, base := 0 }, .run2 3 0, [], rfl, rfl, by decide⟩

theorem witness_ZeroLengthProduce_end : ∃ (s : State) (r : Request), r.len = 0 ∧ s.fsm = .noChunk ∧ s.remaining = [] ∧
    s.src.term = .eos := ⟨bound [] .eos, { len := 0, base := 0 }, rfl, rfl, rfl, rfl⟩

theorem witness_ZeroLengthProduce_error : ∃ (s t : State) (r : Request) (e : ErrorKind), r.len = 0 ∧
    produce r s = .next t ∧ t.resp = some (.error e) :=
  ⟨bound [0x40#8] .eos, _, { len := 0, base := 0 }, .truncatedInput, rfl, rfl, rfl⟩

theorem witness_ProduceInEofAnswersZero : ∃ s : State, s.fsm = .eof := ⟨{ afterLit [] .eos with fsm := .eof }, rfl⟩

theorem witness_ProduceInPoisonedFaults : ∃ (s : State) (r : Request) (cs : List Command), s.fsm = .poisoned ∧
    s.cmds = .produce r :: cs ∧ s.live = true ∧ s.busy = false :=
  ⟨{ afterLit [] .eos with fsm := .poisoned, cmds := [.produce { len := 1, base := 0 }] }, { len := 1, base := 0 }, [], rfl,
    rfl, rfl, rfl⟩

theorem witness_EmptyInputReachesEof : ∃ src : Source, src.bytes = [] ∧ src.term = .eos :=
  ⟨{ bytes := [], term := .eos }, rfl, rfl⟩

/-- A PRODUCE that answers (OK, 3), in a run, whole chunk: the hypotheses of CountNeverExceedsRequestOrChunk,
ProduceMakesOnlyTheTablesTransitions, ProducedBytesAreTheNewestHistory, CursorMovesForwardByHeaderAndPayload and
HostMemoryNeverInfluencesTheBlock. -/
theorem witness_a_produce_that_answers : ∃ (s t : State) (r : Request) (i : Instr) (rest : List Byte), Inv s ∧
    s.live = true ∧ s.busy = false ∧ 1 ≤ r.len ∧ produce r s = .next t ∧ t.resp = some (.ok 3) ∧ t.busy = false ∧
    s.fsm = .noChunk ∧ decode s.remaining = .ok i rest ∧ i.size ≤ r.len :=
  ⟨afterLit [0x00#8, 0x03#8] .eos, _, { len := 3, base := 0 }, .run2 3 3, [], afterLit_inv _ _, rfl, rfl, by decide, rfl,
    rfl, rfl, rfl, by decide, by decide⟩

/-- A PRODUCE that waits inside a payload: the wait clause of CursorMovesForwardByHeaderAndPayload. -/
theorem witness_a_produce_that_waits : ∃ (s t : State) (r : Request), s.busy = false ∧ produce r s = .next t ∧
    t.busy = true ∧ s.inPos < t.inPos :=
  ⟨bound [0x83#8, 0xAA#8] .never, _, { len := 16, base := 0 }, rfl, rfl, rfl, by decide⟩

/-- A step that pulls a header and a payload: the last clause of CursorMovesForwardByHeaderAndPayload. -/
theorem witness_a_step_that_pulls : ∃ s t : State, step s = .next t ∧ t.fsm ≠ .poisoned ∧
    (∀ src cs, s.cmds ≠ .create src :: cs) ∧ (∀ cs, s.cmds ≠ .drop :: cs) ∧ s.inPos < t.inPos :=
  ⟨(bound [0x80#8, 0xAA#8] .eos).issue (.produce { len := 1, base := 0 }), _, rfl, by decide,
    by simp [bound, State.issue, State.reset], by simp [bound, State.issue, State.reset], by decide⟩

/-- A PRODUCE that answers (OK, 0) and enters EOF, in a run: the hypotheses of ZeroCountMeansEof. -/
theorem witness_a_produce_at_the_end : ∃ (s t : State) (r : Request), Inv s ∧ s.live = true ∧ 1 ≤ r.len ∧
    produce r s = .next t ∧ t.resp = some (.ok 0) ∧ t.fsm = .eof :=
  ⟨afterLit [] .eos, _, { len := 3, base := 0 }, afterLit_inv _ _, rfl, by decide, rfl, rfl, rfl⟩

/-- A PRODUCE that answers an error: the hypotheses of EveryErrorPoisonsTheBlock. -/
theorem witness_a_produce_that_fails : ∃ (s t : State) (r : Request), produce r s = .next t ∧
    t.resp = some (.error .invalidOffset) ∧ t.fsm = .poisoned :=
  ⟨afterLit [0x00#8, 0x04#8] .eos, _, { len := 3, base := 0 }, rfl, rfl, rfl⟩

/-- A run in which distances stay below the capacity: ProducedBytesAreTheNewestHistory's last clause at its boundary. -/
theorem witness_ProducedBytes_distance : ∃ (d : BitVec 16) (n : Nat), n = 3 ∧ d.toNat + n < 65536 :=
  ⟨65532#16, 3, rfl, by decide⟩

theorem witness_BufferTooSmallIsFillsAlone : ∃ (s t : State) (r : Request) (filled : Nat), Inv s ∧ s.live = true ∧
    filled < r.len ∧ fillTurn r filled s = .next t ∧ t.fillResp = some (.error .bufferTooSmall) :=
  ⟨afterLit [] .eos, _, { len := 5, base := 0 }, 4, afterLit_inv _ _, rfl, by decide, rfl, rfl⟩

theorem witness_EofAndPoisonedPersistUntilCreateOrDrop : ∃ s t : State, s.live = true ∧ (s.fsm = .eof ∨ s.fsm = .poisoned) ∧
    step s = .next t ∧ (∀ src cs, s.cmds ≠ .create src :: cs) ∧ (∀ cs, s.cmds ≠ .drop :: cs) :=
  ⟨{ afterLit [] .eos with fsm := .eof, cmds := [.produce { len := 1, base := 0 }] }, _, rfl, .inl rfl, rfl, by simp, by simp⟩

theorem witness_CreateGivesTheResetValues : ∃ (s : State) (src : Source) (cs : List Command),
    s.cmds = .create src :: cs ∧ s.busy = false :=
  ⟨{ afterLit [] .eos with fsm := .poisoned, cmds := [.create { bytes := [], term := .eos }] }, _, _, rfl, rfl⟩

theorem witness_AfterDrop_drop : ∃ (s : State) (cs : List Command), s.cmds = .drop :: cs ∧ s.live = true :=
  ⟨{ afterLit [] .eos with cmds := [.drop] }, _, rfl, rfl⟩

/-- The case log 24 speaks of: a PRODUCE waits inside a payload, one byte of it already in BUF, and DROP comes. -/
theorem witness_AfterDrop_drop_waiting : ∃ (s : State) (cs : List Command), s.cmds = .drop :: cs ∧ s.live = true ∧
    s.busy = true ∧ s.buf.read 0 = some 0xAA#8 :=
  ⟨{ midLit with busy := true, buf := [(0, 0xAA#8)], cmds := [.drop] }, _, rfl, rfl, rfl, rfl⟩

theorem witness_AfterDrop_dropped : ∃ (s : State) (c : Command) (cs : List Command), s.live = false ∧ s.busy = false ∧
    s.cmds = c :: cs :=
  ⟨{ afterLit [] .eos with live := false, cmds := [.drop] }, .drop, [], rfl, rfl, rfl⟩

theorem witness_OnlyDropEndsTheWait_idle : ∃ s : State, s.live = true ∧ s.busy = true ∧ s.cmds = [] :=
  ⟨{ bound [] .never with busy := true }, rfl, rfl, rfl⟩

theorem witness_OnlyDropEndsTheWait_drop : ∃ (s : State) (cs : List Command), s.live = true ∧ s.busy = true ∧
    s.cmds = .drop :: cs :=
  ⟨{ bound [] .never with busy := true, cmds := [.drop] }, [], rfl, rfl, rfl⟩

theorem witness_OnlyDropEndsTheWait_overlap : ∃ (s : State) (c : Command) (cs : List Command), s.live = true ∧
    s.busy = true ∧ c ≠ .drop ∧ s.cmds = c :: cs :=
  ⟨{ bound [] .never with busy := true, cmds := [.create { bytes := [], term := .eos }] }, _, [], rfl, rfl, by decide, rfl⟩

theorem witness_NoCommandNoChange : ∃ s : State, s.cmds = [] := ⟨afterLit [] .eos, rfl⟩

theorem witness_FullFillAnswersOkWithoutAProduce : ∃ (s : State) (r : Request) (filled : Nat) (cs : List Command),
    s.cmds = .fill r filled :: cs ∧ s.live = true ∧ s.busy = false ∧ r.len ≤ filled :=
  ⟨(afterLit [] .eos).issue (.fill { len := 0, base := 0 } 0), { len := 0, base := 0 }, 0, [], rfl, rfl, rfl, by decide⟩

theorem witness_FillPassesErrorsOnUnchanged : ∃ (s t : State) (r : Request) (filled : Nat) (e : ErrorKind),
    filled < r.len ∧ fillTurn r filled s = .next t ∧ t.resp = some (.error e) :=
  ⟨afterLit [0x00#8] .eos, _, { len := 8, base := 0 }, 4, .truncatedInput, by decide, rfl, rfl⟩

/-- W3's stream. -/
theorem witness_FirstChunkMustBeLiteral : ∃ (src : Source) (r : Request) (i : Instr) (rest : List Byte),
    decode src.bytes = .ok i rest ∧ i.ctype ≠ .plain ∧ 1 ≤ r.len :=
  ⟨{ bytes := [0x00#8, 0x00#8], term := .eos }, { len := 16, base := 0 }, .run2 3 0, [], by decide, by decide, by decide⟩

/-- W1's stream: the reference decoding of program P1, 11 bytes, ends cleanly. -/
def p1 : Source :=
  { bytes := [0x83#8, 0xFE#8, 0xED#8, 0xFA#8, 0xCE#8, 0x00#8, 0x00#8, 0x40#8, 0x00#8, 0x06#8], term := .eos }

theorem test_reference_w1 : decodeRef p1 =
    { ended := .eof,
      out := [0xFE#8, 0xED#8, 0xFA#8, 0xCE#8, 0xCE#8, 0xCE#8, 0xCE#8, 0xFE#8, 0xED#8, 0xFA#8, 0xCE#8] } := by decide

theorem witness_FillDeliversTheDecodedStream_fits : ∃ (src : Source) (r : Request), (decodeRef src).ended = .eof ∧
    r.len ≤ (decodeRef src).out.length := ⟨p1, { len := 11, base := 0 }, by decide, by decide⟩

theorem witness_FillDeliversTheDecodedStream_long : ∃ (src : Source) (r : Request), (decodeRef src).ended = .eof ∧
    (decodeRef src).out.length < r.len := ⟨p1, { len := 12, base := 0 }, by decide, by decide⟩

theorem witness_EveryStepKeepsTheInvariant : ∃ s t : State, Inv s ∧ step s = .next t :=
  ⟨afterLit [0x00#8, 0x03#8] .eos, _, afterLit_inv _ _, rfl⟩

theorem witness_EverySplitEndsAsTheDecoding_failed : ∃ (s : State) (src : Source) (rs : List Request) (e : ErrorKind),
    (serve rs (create src s)).ended = .failed e :=
  ⟨State.reset, { bytes := [0x00#8, 0x00#8], term := .eos }, [{ len := 1, base := 0 }], .invalidOffset, by decide⟩

theorem witness_EverySplitEndsAsTheDecoding_hung : ∃ (s : State) (src : Source) (rs : List Request),
    (serve rs (create src s)).ended = .hung :=
  ⟨State.reset, { bytes := [0x00#8], term := .never }, [{ len := 1, base := 0 }], by decide⟩

theorem witness_CompletedRunDeliversTheWholeDecoding : ∃ (s : State) (src : Source) (rs : List Request),
    (serve rs (create src s)).ended = .running ∧ (serve rs (create src s)).final.completed ∧ rs ≠ [] :=
  ⟨State.reset, { bytes := [0x80#8, 0x55#8], term := .eos }, [{ len := 1, base := 0 }, { len := 1, base := 0 }], by decide,
    ⟨by decide, by decide⟩, by decide⟩

theorem witness_NonemptyRequestsReachTheEnd : ∃ (s : State) (src : Source) (rs : List Request), (∀ r ∈ rs, 1 ≤ r.len) ∧
    (decodeRef src).out.length + 1 ≤ rs.length ∧ (serve rs (create src s)).ended = .running :=
  ⟨State.reset, { bytes := [0x80#8, 0x55#8], term := .eos }, [{ len := 1, base := 0 }, { len := 1, base := 0 }], by decide,
    by decide, by decide⟩

theorem witness_WindowHoldsTheNewestDeliveredBytes : ∃ (s : State) (src : Source) (rs : List Request) (d : BitVec 16),
    (serve rs (create src s)).ended = .running ∧ d.toNat < (serve rs (create src s)).final.hist.toNat :=
  ⟨State.reset, { bytes := [0x80#8, 0x55#8], term := .eos }, [{ len := 1, base := 0 }], 0#16, by decide, by decide⟩

end Sys2Proof.Tests
end

/-! The window of 20_memory.md: what WinPush does (R54) and what WinGet answers (R53). -/

namespace Sys2Proof.Machine

/-- WinGet of a distance that is held reads the ring at `(wp - 1 - d) mod 65536` (R53). -/
theorem winGet_eq_ring_of_lt {d : BitVec 16} {s : State} (h : d.toNat < s.hist.toNat) :
    winGet d s = some (winByte s ((s.wp.toNat + 65535 - d.toNat) % 65536)) := by
  rw [winGet_of_lt h, winIndex_toNat]

/-- WinGet answers a byte exactly at the distances held (R53). -/
theorem winGet_isSome_iff (d : BitVec 16) (s : State) :
    (winGet d s).isSome = true ↔ d.toNat < s.hist.toNat := by
  rw [Option.isSome_iff_ne_none, ne_eq, winGet_eq_none, not_le]

/-- With a full history the oldest byte, at distance 65535, lies in the slot the next push overwrites (R54). -/
theorem winGet_oldest_of_full {s : State} (h : s.hist.toNat = 65536) :
    winGet 65535#16 s = some (winByte s s.wp.toNat) := by
  have hheld : (65535#16).toNat < s.hist.toNat := by rw [h]; decide
  have hslot : (s.wp.toNat + 65535 - (65535#16).toNat) % 65536 = s.wp.toNat := by
    rw [BitVec.toNat_ofNat, Nat.add_sub_cancel, Nat.mod_eq_of_lt s.wp.isLt]
  rw [winGet_eq_ring_of_lt hheld, hslot]

/-- In a run a distance is held exactly when more than that many bytes have been produced: the cap of the history count
lies beyond every 16-bit distance (R37 (b), R53). -/
theorem RunInv.lt_hist_iff {s : State} (h : RunInv s) (d : BitVec 16) : d.toNat < s.hist.toNat ↔ d.toNat < s.outCount := by
  have hd : d.toNat < Config.windowSize := d.isLt
  rw [h.hist_eq, lt_min_iff, and_iff_left hd]

end Sys2Proof.Machine

namespace Sys2Proof

open Machine

/-- Settles O10: each part of WinPush's effect by its own rule, the frame by the definition of the record update. -/
theorem winPushMovesTheHistoryOneOlder : Obligations.WinPushMovesTheHistoryOneOlder := by
  intro v s
  refine ⟨winGet_push_zero v s, winGet_push_succ v s, ?slot, ?others, winPush_wp_toNat v s, winPush_hist_toNat v s,
    winPush_outCount v s, winGet_oldest_of_full, rfl⟩
  case slot => rw [winPush_win, Memory.read_write_same]
  case others =>
    intro i hi
    rw [winPush_win, Memory.read_write_other _ _ hi]

/-- Settles O11: the refusal and the ring index hold in every state; the count of produced bytes comes from the invariant
of a run. -/
theorem winGetReadsTheRingOrRefuses : Obligations.WinGetReadsTheRingOrRefuses := by
  intro d s
  refine ⟨(winGet_eq_none d s).mpr, winGet_eq_ring_of_lt, fun hinv hlive hfsm => ?_⟩
  have hheld := (hinv.run hlive hfsm).lt_hist_iff d
  constructor
  · rw [winGet_isSome_iff, hheld, Nat.succ_le_iff]
  · rw [← not_lt, hheld, not_lt]

end Sys2Proof

/-! The headers of 30_encoding.md: the classes of header byte 0 (R81) and the operands of each class (R85 to R87), written
with the rules' masks and shifts. -/

namespace Sys2Proof

/-- Bit 7 is set exactly in the upper half of the byte's values. -/
theorem getLsbD_seven_iff (b : Byte) : b.getLsbD 7 = true ↔ 0x80 ≤ b.toNat := by
  rw [← BitVec.msb_eq_getLsbD_last b, BitVec.msb_eq_decide, decide_eq_true_iff]

/-- Below 0x80 bit 6 is set exactly from 0x40 on. -/
theorem getLsbD_six_iff {b : Byte} (h : b.toNat < 0x80) : b.getLsbD 6 = true ↔ 0x40 ≤ b.toNat := by
  rw [BitVec.getLsbD, Nat.testBit_eq_decide_div_mod_eq, decide_eq_true_iff]
  omega

theorem headerType_of_ge_0x80 {b0 : Byte} (h : 0x80 ≤ b0.toNat) : headerType b0 = .plain :=
  if_pos ((getLsbD_seven_iff b0).mpr h)

theorem headerType_of_lt_0x80 {b0 : Byte} (h : b0.toNat < 0x80) :
    headerType b0 = if 0x40 ≤ b0.toNat then .run3 else .run2 := by
  rw [headerType, if_neg (mt (getLsbD_seven_iff b0).mp (not_le.mpr h))]
  simp only [getLsbD_six_iff h]

theorem headerType_of_0x40_to_0x7F {b0 : Byte} (h6 : 0x40 ≤ b0.toNat) (h7 : b0.toNat < 0x80) : headerType b0 = .run3 := by
  rw [headerType_of_lt_0x80 h7, if_pos h6]

theorem headerType_of_lt_0x40 {b0 : Byte} (h : b0.toNat < 0x40) : headerType b0 = .run2 := by
  rw [headerType_of_lt_0x80 (h.trans (by decide)), if_neg (not_le.mpr h)]

theorem decode_plain {b0 : Byte} (h : headerType b0 = .plain) (rest : List Byte) :
    decode (b0 :: rest) = .ok (.lit (plainSize b0)) rest := by
  simp only [decode, h]

theorem decode_run2 {b0 : Byte} (h : headerType b0 = .run2) (b1 : Byte) (rest : List Byte) :
    decode (b0 :: b1 :: rest) = .ok (.run2 (run2Size b0) (run2Offset b0 b1)) rest := by
  simp only [decode, h]

theorem decode_run3 {b0 : Byte} (h : headerType b0 = .run3) (b1 b2 : Byte) (rest : List Byte) :
    decode (b0 :: b1 :: b2 :: rest) = .ok (.run3 (run3Size b0) (run3Offset b1 b2)) rest := by
  simp only [decode, h]

/-- The low `n` bits of a byte are the byte masked with `n` ones. -/
theorem extractLsb'_zero_toNat_eq_and (b : Byte) {mask : Byte} {n : Nat} (hmask : mask.toNat = 2 ^ n - 1) :
    (b.extractLsb' 0 n).toNat = (b &&& mask).toNat := by
  rw [BitVec.extractLsb'_toNat, Nat.shiftRight_zero, BitVec.toNat_and, hmask, Nat.and_two_pow_sub_one_eq_mod]

theorem plainSize_eq_mask (b0 : Byte) : plainSize b0 = (b0 &&& 0x7F#8).toNat + 1 := by
  rw [plainSize, extractLsb'_zero_toNat_eq_and b0 (mask := 0x7F#8) rfl]

theorem run3Size_eq_mask (b0 : Byte) : run3Size b0 = (b0 &&& 0x3F#8).toNat + 4 := by
  rw [run3Size, extractLsb'_zero_toNat_eq_and b0 (mask := 0x3F#8) rfl]

/-- `b0[5:2]` is `b0[5:0]` without its two low bits. -/
theorem run2Size_eq_mask (b0 : Byte) : run2Size b0 = ((b0 &&& 0x3F#8).toNat >>> 2) + 3 := by
  rw [run2Size, ← extractLsb'_zero_toNat_eq_and b0 (n := 6) rfl]
  simp only [BitVec.extractLsb'_toNat, Nat.shiftRight_eq_div_pow]
  omega

theorem run2Offset_eq_or (b0 b1 : Byte) : run2Offset b0 b1 = ((b0 &&& 0x3#8).toNat <<< 8) ||| b1.toNat := by
  rw [run2Offset, BitVec.toNat_append, extractLsb'_zero_toNat_eq_and b0 (mask := 0x3#8) rfl]

theorem run3Offset_eq_or (b1 b2 : Byte) : run3Offset b1 b2 = (b1.toNat <<< 8) ||| b2.toNat :=
  BitVec.toNat_append b1 b2

theorem plainSize_range (b0 : Byte) : 1 ≤ plainSize b0 ∧ plainSize b0 ≤ 128 :=
  ⟨Nat.le_add_left _ _, (b0.extractLsb' 0 7).isLt⟩

theorem run2Size_range (b0 : Byte) : 3 ≤ run2Size b0 ∧ run2Size b0 ≤ 18 :=
  ⟨Nat.le_add_left _ _, Nat.add_le_add_right (Nat.le_of_lt_succ (b0.extractLsb' 2 4).isLt) 3⟩

theorem run3Size_range (b0 : Byte) : 4 ≤ run3Size b0 ∧ run3Size b0 ≤ 67 :=
  ⟨Nat.le_add_left _ _, Nat.add_le_add_right (Nat.le_of_lt_succ (b0.extractLsb' 0 6).isLt) 4⟩

theorem run2Offset_le (b0 b1 : Byte) : run2Offset b0 b1 ≤ 1023 :=
  Nat.le_of_lt_succ (b0.extractLsb' 0 2 ++ b1).isLt

theorem run3Offset_le (b1 b2 : Byte) : run3Offset b1 b2 ≤ 65535 :=
  Nat.le_of_lt_succ (b1 ++ b2).isLt

/-- Settles O3: a header byte 0 with bit 7 set decodes as Plain, its size is the rule's formula; the examples are run. -/
theorem plainSizeIsLowSevenBitsPlusOne : Obligations.PlainSizeIsLowSevenBitsPlusOne := by
  refine ⟨fun b0 rest h => ?_, by decide, by decide, by decide⟩
  rw [← plainSize_eq_mask]
  exact ⟨decode_plain (headerType_of_ge_0x80 h) rest, plainSize_range b0⟩

/-- Settles O4: a header byte 0 with bits 7:6 clear decodes as TwoByteRun, its operands are the rule's formulas; the
examples are run. -/
theorem twoByteRunOperandsAreTheRulesFormulas : Obligations.TwoByteRunOperandsAreTheRulesFormulas := by
  refine ⟨fun b0 b1 rest h => ?_, by decide, by decide, by decide⟩
  rw [← run2Size_eq_mask, ← run2Offset_eq_or]
  obtain ⟨hmin, hmax⟩ := run2Size_range b0
  exact ⟨decode_run2 (headerType_of_lt_0x40 h) b1 rest, hmin, hmax, run2Offset_le b0 b1⟩

/-- Settles O5: a header byte 0 with bits 7:6 = 01 decodes as ThreeByteRun, its operands are the rule's formulas; the
examples are run. -/
theorem threeByteRunOperandsAreTheRulesFormulas : Obligations.ThreeByteRunOperandsAreTheRulesFormulas := by
  refine ⟨fun b0 b1 b2 rest h6 h7 => ?_, by decide, by decide⟩
  rw [← run3Size_eq_mask, ← run3Offset_eq_or]
  obtain ⟨hmin, hmax⟩ := run3Size_range b0
  exact ⟨decode_run3 (headerType_of_0x40_to_0x7F h6 h7) b1 b2 rest, hmin, hmax, run3Offset_le b1 b2⟩

end Sys2Proof

/-! The run chunks of 41_chunk_instructions.md: an offset that is held stays held (R125), and the bytes of a run repeat the
last `d + 1` bytes before it (R126). -/

namespace Sys2Proof.Machine

/-- A push never takes a distance out of the history (R54). -/
theorem lt_hist_winPush {d : BitVec 16} {s : State} (v : Byte) (h : d.toNat < s.hist.toNat) :
    d.toNat < (winPush v s).hist.toNat := by
  have hd : d.toNat < Config.windowSize := d.isLt
  rw [winPush_hist_toNat, lt_min_iff]
  exact ⟨Nat.lt_succ_of_lt h, hd⟩

/-- A run whose offset is held succeeds for every count, and its offset is still held after it (R125). -/
theorem runStep_keeps_offset_held (n i : Nat) (s : State) (h : s.coff.toNat < s.hist.toNat) :
    ∃ t, runStep n i s = .done () t ∧ t.outCount = s.outCount + n ∧ t.coff = s.coff ∧ t.coff.toNat < t.hist.toNat := by
  induction n generalizing i s with
  | zero => exact ⟨s, rfl, rfl, rfl, h⟩
  | succ n ih =>
    obtain ⟨v, hv⟩ : ∃ v, winGet s.coff s = some v := ⟨_, winGet_of_lt h⟩
    obtain ⟨t, hrun, hcount, hcoff, hheld⟩ :=
      ih (i + 1) (winPush v (bufWrite i v s)) (lt_hist_winPush (s := bufWrite i v s) v h)
    refine ⟨t, by rw [runStep, hv]; exact hrun, ?_, hcoff, hheld⟩
    rw [hcount, winPush_outCount, bufWrite_outCount]
    omega

/-- The only error of a run is INVALID_OFFSET at its first byte, before anything has changed (R121, R125). -/
theorem runStep_raised {n i : Nat} {s t : State} {e : ErrorKind} (h : runStep n i s = .raised e t) :
    e = .invalidOffset ∧ t = s ∧ s.hist.toNat ≤ s.coff.toNat := by
  rcases Nat.lt_or_ge s.coff.toNat s.hist.toNat with hheld | hout
  · obtain ⟨u, hdone, -⟩ := runStep_keeps_offset_held n i s hheld
    rw [hdone] at h
    cases h
  · cases n with
    | zero => cases h
    | succ n =>
      rw [runStep_refused n i s hout] at h
      cases h
      exact ⟨rfl, rfl, hout⟩

/-- Past its first `d + 1` bytes a run repeats itself, so each byte is one of the last `d + 1` bytes before it (R126). -/
theorem RunBytes.periodic {d : BitVec 16} {s : State} {out : List Byte} (h : RunBytes d s out) (k : Nat)
    (hk : k < out.length) : winGet (BitVec.ofNat 16 (d.toNat - k % (d.toNat + 1))) s = some out[k] := by
  induction k using Nat.strong_induction_on with
  | _ k ih =>
    obtain ⟨hhistory, hrun⟩ := h k hk
    rcases Nat.lt_or_ge d.toNat k with hlt | hge
    · have hmod : (k - 1 - d.toNat) % (d.toNat + 1) = k % (d.toNat + 1) := by
        rw [Nat.sub_sub, Nat.add_comm 1, ← Nat.mod_eq_sub_mod hlt]
      rw [hrun hlt, ← hmod]
      exact ih (k - 1 - d.toNat) (by omega) (by omega)
    · rw [Nat.mod_eq_of_lt (Nat.lt_succ_of_le hge)]
      exact hhistory hge

/-- A call of the chunk just adopted is a call from the state before the adoption: the adoption writes chunk registers and
`fsm` only (R144). -/
theorem CallDone.of_adopted {i : Instr} {owed : Nat} {s t : State} {out : List Byte}
    (h : CallDone owed (adopted i s) t out) : CallDone owed s t out := by
  obtain ⟨count, owes, fsm_eq, resp_eq, window, buffer, interface, busy_eq, tick_eq⟩ := h
  obtain ⟨pushed, kept, wp_eq, hist_eq, outCount_eq⟩ := window
  obtain ⟨bytes, untouched⟩ := buffer
  obtain ⟨src_eq, live_eq, req_eq, fillResp_eq, cmds_eq⟩ := interface
  cases i <;>
    exact ⟨count, owes, fsm_eq, resp_eq, ⟨pushed, kept, wp_eq, hist_eq, outCount_eq⟩, ⟨bytes, untouched⟩,
      ⟨src_eq, live_eq, req_eq, fillResp_eq, cmds_eq⟩, busy_eq, tick_eq⟩

/-- The bytes of a run come from the window before the adoption. -/
theorem RunBytes.of_adopted {i : Instr} {d : BitVec 16} {s : State} {out : List Byte}
    (h : RunBytes d (adopted i s) out) : RunBytes d s out := by
  cases i <;> exact h

@[simp] theorem adopted_hist (i : Instr) (s : State) : (adopted i s).hist = s.hist := by cases i <;> rfl

/-- The operands of a well-formed run fit their registers (R24, R25, R86, R87). -/
theorem run_operands_fit {i : Instr} {d : Nat} (hwf : i.wellFormed = true) (hi : i = .run2 i.size d ∨ i = .run3 i.size d) :
    i.ctype ≠ .plain ∧ i.size < 2 ^ 8 ∧ d < 2 ^ 16 ∧ ∀ s, (adopted i s).coff = BitVec.ofNat 16 d := by
  obtain ⟨size, hsize⟩ : ∃ size, i.size = size := ⟨_, rfl⟩
  rw [hsize] at hi ⊢
  rcases hi with rfl | rfl <;> simp only [Instr.wellFormed, Bool.and_eq_true, decide_eq_true_eq] at hwf
  · exact ⟨nofun, by omega, by omega, fun _ => rfl⟩
  · exact ⟨nofun, by omega, by omega, fun _ => rfl⟩

/-- RUN2 and RUN3 whose offset the history holds: the call is done, its bytes copied from the history and from the run
itself (R121 to R124). -/
theorem exec_run_held {i : Instr} {d : Nat} {s : State} (hwf : i.wellFormed = true)
    (hi : i = .run2 i.size d ∨ i = .run3 i.size d) (hheld : d < s.hist.toNat) :
    ∃ t out, exec i s = .next t ∧ CallDone i.size s t out ∧ RunBytes (BitVec.ofNat 16 d) s out := by
  obtain ⟨hrun, hsize, hd, hcoff⟩ := run_operands_fit hwf hi
  have hoff : (adopted i s).coff.toNat = d := by rw [hcoff, BitVec.toNat_ofNat, Nat.mod_eq_of_lt hd]
  have howed : (adopted i s).csize.toNat = i.size := by rw [adopted_csize, BitVec.toNat_ofNat, Nat.mod_eq_of_lt hsize]
  obtain ⟨t, hnext, hdone | ⟨hplain, -⟩ | ⟨-, -, hout, -⟩⟩ := continueChunk_cases (adopted_fsm i s)
  · obtain ⟨out, hcall, -, -, ⟨hplain, -⟩ | ⟨-, hbytes, -⟩⟩ := hdone
    · exact absurd ((adopted_ctype i s).symm.trans hplain) hrun
    · rw [howed] at hcall
      rw [hcoff] at hbytes
      exact ⟨t, out, (exec_eq_continue i s).trans hnext, hcall.of_adopted, hbytes.of_adopted⟩
  · exact absurd ((adopted_ctype i s).symm.trans hplain) hrun
  · rw [hoff, adopted_hist] at hout
    exact absurd hheld (Nat.not_lt.mpr hout)

end Sys2Proof.Machine

namespace Sys2Proof

open Machine

/-- Settles O21: an error leaves the state as it was, a held offset stays held through any number of pushes, and the
invariant of a run ties the history count to `out_count`. -/
theorem invalidOffsetOnlyAtTheFirstByte : Obligations.InvalidOffsetOnlyAtTheFirstByte := by
  intro n i s
  refine ⟨fun e t => runStep_raised, fun v hv => ?_⟩
  have hheld : s.coff.toNat < s.hist.toNat := (winGet_isSome_iff s.coff s).mp (by rw [hv]; rfl)
  constructor
  · obtain ⟨t, hrun, hcount, hcoff, hstill⟩ := runStep_keeps_offset_held n i s hheld
    exact ⟨t, hrun, hcount, hcoff, (winGet_isSome_iff t.coff t).mpr hstill⟩
  · intro hinv hlive hfsm
    exact ((hinv.run hlive hfsm).lt_hist_iff s.coff).mp hheld

/-- Settles O22: all three clauses read off the period of the run's bytes. -/
theorem selfOverlappingRunRepeatsItsPeriod : Obligations.SelfOverlappingRunRepeatsItsPeriod := by
  intro i d s hwf hi hlen hheld
  obtain ⟨t, out, hnext, hcall, hbytes⟩ := exec_run_held hwf hi hheld
  obtain ⟨-, -, hd, -⟩ := run_operands_fit hwf hi
  have hcount : out.length = i.size := hcall.count.trans (Nat.min_eq_left hlen)
  have hperiod : ∀ k < i.size,
      t.buf.read (s.req.base + k) = winGet (BitVec.ofNat 16 (d - k % (d + 1))) s := by
    intro k hk
    rw [← hcount] at hk
    have hget := hbytes.periodic k hk
    rw [BitVec.toNat_ofNat, Nat.mod_eq_of_lt hd] at hget
    rw [hcall.buffer.bytes k hk, hget]
  refine ⟨t, hnext, by rw [hcall.resp_eq, hcount], fun _ => hperiod, fun hle k hk => ?apart, fun h0 k hk => ?zero⟩
  case apart => rw [hperiod k hk, Nat.mod_eq_of_lt (by omega)]
  case zero => rw [hperiod k hk, h0, Nat.zero_sub]

end Sys2Proof

/-! The window after a PRODUCE of 42_produce.md: the bytes delivered are the newest of the history (R127). -/

namespace Sys2Proof.Machine

/-- The bytes a call has pushed are the newest of the window, the last of them at distance 0 (R55, R127). -/
theorem Pushed.winGet_newest {s t : State} {out : List Byte} (h : Pushed s t out)
    (hlen : out.length ≤ Config.windowSize) {k : Nat} (hk : k < out.length) :
    winGet (BitVec.ofNat 16 (out.length - 1 - k)) t = some out[k] := by
  have hhist := h.hist_eq
  have hwp := h.wp_eq
  have hread := h.written k hk
  rw [if_neg (by omega)] at hhist
  simp only [Config.windowSize] at hlen hhist hwp hread
  have hd : (BitVec.ofNat 16 (out.length - 1 - k)).toNat = out.length - 1 - k := by
    rw [BitVec.toNat_ofNat, Nat.mod_eq_of_lt (by omega)]
  have hslot : (t.wp.toNat + 65535 - (out.length - 1 - k)) % 65536 = (s.wp.toNat + k) % 65536 := by omega
  rw [winGet_eq_ring_of_lt (by omega), hd, hslot, winByte, hread, Option.getD_some]

/-- The old history lies behind the bytes a call has pushed, moved back by their number, as far as a distance reaches
(R55, R127). -/
theorem Pushed.winGet_older {s t : State} {out : List Byte} (h : Pushed s t out) (htick : t.tick = s.tick) {d : BitVec 16}
    (hd : d.toNat + out.length < Config.windowSize) :
    winGet (BitVec.ofNat 16 (d.toNat + out.length)) t = winGet d s := by
  have hhist := h.hist_eq
  have hwp := h.wp_eq
  have hkept := h.untouched
  simp only [Config.windowSize] at hd hhist hwp hkept
  have hdist : (BitVec.ofNat 16 (d.toNat + out.length)).toNat = d.toNat + out.length := by
    rw [BitVec.toNat_ofNat, Nat.mod_eq_of_lt (by omega)]
  have hheld : t.hist.toNat ≤ d.toNat + out.length ↔ s.hist.toNat ≤ d.toNat := by
    split at hhist <;> omega
  rcases Nat.lt_or_ge d.toNat s.hist.toNat with hin | hout
  · have hslot : (t.wp.toNat + 65535 - (d.toNat + out.length)) % 65536 = (s.wp.toNat + 65535 - d.toNat) % 65536 := by omega
    rw [winGet_eq_ring_of_lt hin, winGet_eq_ring_of_lt (by omega), hdist, hslot, winByte, winByte, htick,
      hkept _ (by omega)]
  · rw [(winGet_eq_none d s).mpr hout, winGet_eq_none, hdist, hheld]
    exact hout

/-- A call that the source's terminator ends answers no count (R181, R183, R200). -/
theorem EndsInside.resp_ne_ok {fsm : Fsm} {ctype : CType} {owed n : Nat} {out : List Byte} {s t : State}
    (h : EndsInside fsm ctype owed out s t) (hs : s.resp = none) : t.resp ≠ some (.ok n) := by
  unfold EndsInside at h
  split at h
  case h_1 | h_2 => simp [h.resp_eq]
  case h_3 => simp [h.resp_eq, hs]

/-- A call with an active chunk that answers (OK, n) is done and has produced `n` bytes, no more than `csize` counts
(R143, R146). -/
theorem continueChunk_ok {s t : State} {n : Nat} (hfsm : s.fsm = .active) (hs : s.resp = none)
    (h : continueChunk s = .next t) (hresp : t.resp = some (.ok n)) :
    ∃ out, out.length = n ∧ n < 2 ^ 8 ∧ CallDone s.csize.toNat s t out := by
  obtain ⟨u, hnext, hends⟩ := continueChunk_cases hfsm
  obtain rfl : u = t := by simpa [hnext] using h
  obtain ⟨out, hcall, -⟩ | ⟨-, -, hinside⟩ | ⟨-, -, -, hfail⟩ := hends
  · obtain rfl : out.length = n := by simpa [hcall.resp_eq] using hresp
    have hle : out.length ≤ s.csize.toNat := hcall.count ▸ Nat.min_le_left _ _
    exact ⟨out, rfl, hle.trans_lt s.csize.isLt, hcall⟩
  · exact absurd hresp (hinside.resp_ne_ok hs)
  · simp [hfail.resp_eq] at hresp

@[simp] theorem adopted_resp (i : Instr) (s : State) : (adopted i s).resp = s.resp := by cases i <;> rfl

/-- A PRODUCE has pushed `out` and written it to its BUF, and left the epoch of the free values as it was (R127). -/
structure Produced (r : Request) (s t : State) (out : List Byte) : Prop where
  window : Pushed s t out
  buffer : Written (beginProduce r s) t out
  tick_eq : t.tick = s.tick

/-- At the end of the stream a PRODUCE produces nothing (R142). -/
theorem Produced.at_end (r : Request) (s : State) (f : Fsm) :
    Produced r s { s with req := r, resp := some (.ok 0), fsm := f } [] := by
  obtain ⟨written, untouched, wp_eq, hist_eq, outCount_eq⟩ := Pushed.refl s
  exact ⟨⟨written, untouched, wp_eq, hist_eq, outCount_eq⟩, ⟨nofun, fun _ _ => rfl⟩, rfl⟩

/-- A call that is done has produced its bytes, wherever the header before it has left the cursor. -/
theorem Produced.of_callDone {r : Request} {s t : State} {out : List Byte} {owed p : Nat}
    (h : CallDone owed { beginProduce r s with inPos := p } t out) : Produced r s t out := by
  obtain ⟨written, untouched, wp_eq, hist_eq, outCount_eq⟩ := h.window
  obtain ⟨bytes, kept⟩ := h.buffer
  exact ⟨⟨written, untouched, wp_eq, hist_eq, outCount_eq⟩, ⟨bytes, kept⟩, h.tick_eq⟩

/-- A PRODUCE that answers (OK, n), in whatever state it is issued, has produced `n` bytes (R127, R142, R143). -/
theorem produce_ok {s t : State} {r : Request} {n : Nat} (h : produce r s = .next t) (hresp : t.resp = some (.ok n)) :
    ∃ out, out.length = n ∧ n < 2 ^ 8 ∧ Produced r s t out := by
  obtain ⟨-, he⟩ | ⟨-, he⟩ | ⟨hfsm, he⟩ | ⟨-, -, -, he⟩ | ⟨-, -, ⟨e, -, he⟩ | ⟨-, he⟩⟩ | ⟨-, i, rest, -, he⟩ :=
    produce_cases r s <;> rw [he] at h
  · cases h
    cases hresp
    exact ⟨[], rfl, by decide, .at_end r s s.fsm⟩
  · cases h
  · obtain ⟨out, hcount, hn, hcall⟩ := continueChunk_ok (s := beginProduce r s) hfsm rfl h hresp
    exact ⟨out, hcount, hn, .of_callDone (p := s.inPos) hcall⟩
  · cases h
    cases hresp
    exact ⟨[], rfl, by decide, .at_end r s .eof⟩
  · cases h
    cases hresp
  · cases h
    cases hresp
  · obtain ⟨out, hcount, hn, hcall⟩ := continueChunk_ok (adopted_fsm i _) (adopted_resp i _) h hresp
    exact ⟨out, hcount, hn, .of_callDone hcall.of_adopted⟩

end Sys2Proof.Machine

namespace Sys2Proof

open Machine

/-- Settles O36: the window of a call that answers (OK, n), read at the newest `n` distances and at those behind them. -/
theorem producedBytesAreTheNewestHistory : Obligations.ProducedBytesAreTheNewestHistory := by
  intro s t r n _ _ hnext hresp
  obtain ⟨out, rfl, hn, hwindow, hbuffer, htick⟩ := produce_ok hnext hresp
  have hfits : out.length ≤ Config.windowSize := by
    simp only [Config.windowSize]
    omega
  exact ⟨hwindow.outCount_eq, fun k hk => ⟨out[k], hbuffer.bytes k hk, hwindow.winGet_newest hfits hk⟩,
    fun d hd => hwindow.winGet_older htick hd⟩

end Sys2Proof

/-! PRODUCE at the end of the stream and PRODUCE of no bytes, 42_produce.md: EOF (R142, R149, R154), POISONED (R147) and
`len = 0` (R150). -/

namespace Sys2Proof.Machine

/-- In EOF a PRODUCE answers (OK, 0) and pulls nothing (R142). -/
theorem produce_of_eof {s : State} (r : Request) (h : s.fsm = .eof) :
    produce r s = .next (respond (.ok 0) (beginProduce r s)) := by
  simp only [produce, h]

/-- In POISONED a PRODUCE has no result (R147). -/
theorem produce_of_poisoned {s : State} (r : Request) (h : s.fsm = .poisoned) : produce r s = .fault .poisonedAccess := by
  simp only [produce, h]

/-- In ACTIVE a PRODUCE goes on with the chunk (R148). -/
theorem produce_of_active {s : State} (r : Request) (h : s.fsm = .active) :
    produce r s = continueChunk (beginProduce r s) := by
  simp only [produce, h]

/-- In NO_CHUNK a PRODUCE that meets the clean end of the stream enters EOF (R141, R102). -/
theorem produce_of_clean_end {s : State} (r : Request) (hfsm : s.fsm = .noChunk) (hrem : s.remaining = [])
    (hterm : s.src.term = .eos) : produce r s = .next (respond (.ok 0) { beginProduce r s with fsm := .eof }) := by
  simp only [produce, hfsm, startChunk, parseNext_nil (s := beginProduce r s) hrem, beginProduce_src, hterm]

/-- In NO_CHUNK a PRODUCE that reads a whole header adopts its chunk and goes on with it (R141, R144). -/
theorem produce_of_decode {s : State} (r : Request) {i : Instr} {rest : List Byte} (hfsm : s.fsm = .noChunk)
    (hdec : decode s.remaining = .ok i rest) :
    produce r s = continueChunk (adopted i { beginProduce r s with inPos := s.inPos + i.headerLength }) := by
  simp only [produce, hfsm, startChunk, parseNext_ok (s := beginProduce r s) hdec, exec_eq_continue, beginProduce_inPos]

/-- A step that takes a PRODUCE, of a live block that does not wait, is that PRODUCE (R63, R198). -/
theorem step_produce {s : State} {r : Request} {cs : List Command} (hcmds : s.cmds = .produce r :: cs)
    (hlive : s.live = true) (hbusy : s.busy = false) : step s = produce r { s with cmds := cs } := by
  simp only [step, hcmds, runCommand, hlive, hbusy, Bool.not_true, Bool.false_eq_true, if_false]

@[simp] theorem adopted_req (i : Instr) (s : State) : (adopted i s).req = s.req := by cases i <;> rfl

@[simp] theorem adopted_inPos (i : Instr) (s : State) : (adopted i s).inPos = s.inPos := by cases i <;> rfl

@[simp] theorem adopted_outCount (i : Instr) (s : State) : (adopted i s).outCount = s.outCount := by cases i <;> rfl

@[simp] theorem adopted_win (i : Instr) (s : State) : (adopted i s).win = s.win := by cases i <;> rfl

@[simp] theorem adopted_buf (i : Instr) (s : State) : (adopted i s).buf = s.buf := by cases i <;> rfl

/-- The size of a chunk that the decoder reads fits the register `csize` (R24, R108). -/
theorem adopted_csize_toNat_of_decode {bs rest : List Byte} {i : Instr} (h : decode bs = .ok i rest) (s : State) :
    (adopted i s).csize.toNat = i.size := by
  obtain ⟨-, hmax, -⟩ := decode_ranges h
  have hfits : maxSize i.ctype ≤ 128 := by cases i.ctype <;> decide
  rw [adopted_csize, BitVec.toNat_ofNat, Nat.mod_eq_of_lt (by omega)]

/-- A call of no bytes looks nothing up and pulls nothing, whatever the chunk's type (R150). -/
theorem continueChunk_of_len_zero {s : State} (h : s.req.len = 0) : continueChunk s = .next (finishCall 0 s) := by
  have hcount : produceCount s = 0 := by rw [produceCount, h, Nat.min_zero]
  unfold continueChunk
  cases s.ctype with
  | run2 => simp only [continueRun2, hcount, runStep, conclude]
  | run3 => simp only [continueRun3, hcount, runStep, conclude]
  | plain => simp only [continueLit, plainStep, hcount, readPayload, andThen_done, winExtend, conclude]

/-- Ending a call of no bytes changes nothing of a chunk that still owes some (R145, R146). -/
theorem finishCall_zero {s : State} (h : 1 ≤ s.csize.toNat) : finishCall 0 s = respond (.ok 0) s := by
  rw [finishCall, Nat.sub_zero, if_neg (by omega), BitVec.ofNat_toNat, BitVec.setWidth_eq]

/-- In ACTIVE a PRODUCE of no bytes answers (OK, 0) and changes nothing, so it detects no offset that is not held (R150). -/
theorem produce_len_zero_of_active {s : State} {r : Request} (hlen : r.len = 0) (hfsm : s.fsm = .active)
    (howed : 1 ≤ s.csize.toNat) : produce r s = .next (respond (.ok 0) (beginProduce r s)) := by
  rw [produce_of_active r hfsm, continueChunk_of_len_zero hlen, finishCall_zero (s := beginProduce r s) howed]

/-- In NO_CHUNK a PRODUCE of no bytes that reads a whole header adopts its chunk and answers (OK, 0) (R144, R150). -/
theorem produce_len_zero_of_decode {s : State} {r : Request} {i : Instr} {rest : List Byte} (hlen : r.len = 0)
    (hfsm : s.fsm = .noChunk) (hdec : decode s.remaining = .ok i rest) :
    produce r s =
      .next (respond (.ok 0) (adopted i { beginProduce r s with inPos := s.inPos + i.headerLength })) := by
  obtain ⟨hsize, -⟩ := decode_ranges hdec
  rw [produce_of_decode r hfsm hdec, continueChunk_of_len_zero (by rw [adopted_req]; exact hlen),
    finishCall_zero (by rw [adopted_csize_toNat_of_decode hdec]; exact hsize)]

/-- A PRODUCE of no bytes fails only in NO_CHUNK, at a header that is not whole (R150). -/
theorem produce_len_zero_error {s t : State} {r : Request} {e : ErrorKind} (hlen : r.len = 0)
    (h : produce r s = .next t) (hresp : t.resp = some (.error e)) :
    s.fsm = .noChunk ∧ ∀ i rest, decode s.remaining ≠ .ok i rest := by
  obtain ⟨-, he⟩ | ⟨-, he⟩ | ⟨-, he⟩ | ⟨-, -, -, he⟩ | ⟨hfsm, hcut, -⟩ | ⟨-, i, rest, -, he⟩ := produce_cases r s
  case inr.inr.inr.inr.inl =>
    refine ⟨hfsm, fun i rest hdec => ?_⟩
    obtain hnil | htrunc := hcut
    · rw [hnil] at hdec
      cases hdec
    · rw [htrunc] at hdec
      cases hdec
  all_goals rw [he] at h
  · cases h
    cases hresp
  · cases h
  · rw [continueChunk_of_len_zero hlen] at h
    cases h
    cases hresp
  · cases h
    cases hresp
  · rw [continueChunk_of_len_zero (by rw [adopted_req]; exact hlen)] at h
    cases h
    cases hresp

/-- The stream is at its end where the next PRODUCE looks: in EOF, or in NO_CHUNK at the source's clean end (R102, R142). -/
def State.atEnd (s : State) : Prop :=
  s.fsm = .eof ∨ (s.fsm = .noChunk ∧ s.remaining = [] ∧ s.src.term = .eos)

/-- At the end of the stream a PRODUCE answers (OK, 0) and is in EOF after it (R142, R149). -/
theorem produce_of_atEnd {s t : State} {r : Request} (hend : s.atEnd) (h : produce r s = .next t) :
    t.resp = some (.ok 0) ∧ t.fsm = .eof := by
  obtain hfsm | ⟨hfsm, hrem, hterm⟩ := hend
  · rw [produce_of_eof r hfsm] at h
    cases h
    exact ⟨rfl, hfsm⟩
  · rw [produce_of_clean_end r hfsm hrem hterm] at h
    cases h
    exact ⟨rfl, rfl⟩

/-- A call that the source's terminator ends fails, or waits in the decoder state given (R181, R183, R200). -/
theorem EndsInside.fsm_eq {fsm : Fsm} {ctype : CType} {owed : Nat} {out : List Byte} {s t : State}
    (h : EndsInside fsm ctype owed out s t) : t.fsm = .poisoned ∨ t.fsm = fsm := by
  unfold EndsInside at h
  split at h
  case h_1 | h_2 => exact .inl h.fsm_eq
  case h_3 => exact .inr h.fsm_eq

/-- A call with an active chunk never enters EOF (R151). -/
theorem continueChunk_fsm_ne_eof {s t : State} (hfsm : s.fsm = .active) (h : continueChunk s = .next t) :
    t.fsm ≠ .eof := by
  obtain ⟨u, hnext, hends⟩ := continueChunk_cases hfsm
  obtain rfl : u = t := by simpa [hnext] using h
  obtain ⟨out, hcall, -⟩ | ⟨-, -, hinside⟩ | ⟨-, -, -, hfail⟩ := hends
  · rw [hcall.fsm_eq]
    split <;> decide
  · obtain hpoisoned | hactive := hinside.fsm_eq
    · simp [hpoisoned]
    · simp [hactive]
  · simp [hfail.fsm_eq]

/-- A call that asks an active chunk for a byte does not answer (OK, 0) (R143, R149). -/
theorem continueChunk_resp_ne_zero {s t : State} (hfsm : s.fsm = .active) (hs : s.resp = none)
    (howed : 1 ≤ s.csize.toNat) (hlen : 1 ≤ s.req.len) (h : continueChunk s = .next t) : t.resp ≠ some (.ok 0) := by
  intro hresp
  obtain ⟨out, hzero, -, hcall⟩ := continueChunk_ok hfsm hs h hresp
  have hcount := hcall.count
  omega

/-- In a run, before the end of the stream, a PRODUCE that asks for a byte neither answers (OK, 0) nor enters EOF: every
chunk owes at least one byte (R24, R37 (a), R149). -/
theorem produce_of_not_atEnd {s t : State} {r : Request} (howed : s.fsm = .active → 1 ≤ s.csize.toNat)
    (hlen : 1 ≤ r.len) (hend : ¬ s.atEnd) (h : produce r s = .next t) : t.resp ≠ some (.ok 0) ∧ t.fsm ≠ .eof := by
  obtain ⟨hfsm, -⟩ | ⟨-, he⟩ | ⟨hfsm, he⟩ | ⟨hfsm, hrem, hterm, -⟩ | ⟨hfsm, -, ⟨e, -, he⟩ | ⟨-, he⟩⟩ |
    ⟨-, i, rest, hdec, he⟩ := produce_cases r s
  · exact absurd (.inl hfsm) hend
  · simp [he] at h
  · rw [he] at h
    exact ⟨continueChunk_resp_ne_zero (s := beginProduce r s) hfsm rfl (howed hfsm) hlen h,
      continueChunk_fsm_ne_eof (s := beginProduce r s) hfsm h⟩
  · exact absurd (.inr ⟨hfsm, hrem, hterm⟩) hend
  · rw [he] at h
    cases h
    exact ⟨nofun, nofun⟩
  · rw [he] at h
    cases h
    exact ⟨nofun, by simp [hfsm]⟩
  · rw [he] at h
    obtain ⟨hsize, -⟩ := decode_ranges hdec
    exact ⟨continueChunk_resp_ne_zero (adopted_fsm i _) (adopted_resp i _)
        (by rw [adopted_csize_toNat_of_decode hdec]; exact hsize) (by rw [adopted_req]; exact hlen) h,
      continueChunk_fsm_ne_eof (adopted_fsm i _) h⟩

end Sys2Proof.Machine

namespace Sys2Proof

open Machine

/-- Settles O28: the call of an active chunk, the clean end, the call of the chunk just adopted, and the failed header. -/
theorem zeroLengthProduceOnlyParses : Obligations.ZeroLengthProduceOnlyParses := by
  intro s r hlen
  exact ⟨produce_len_zero_of_active hlen, produce_of_clean_end r,
    fun i rest hfsm hdec => ⟨_, produce_len_zero_of_decode hlen hfsm hdec, adopted_fsm i _, adopted_ctype i _,
      adopted_csize_toNat_of_decode hdec _, rfl, adopted_inPos i _, adopted_outCount i _, adopted_win i _,
      adopted_buf i _⟩,
    fun _ _ => produce_len_zero_error hlen⟩

/-- Settles O34: at the end of the stream both sides of both equivalences hold, before it none does. -/
theorem zeroCountMeansEof : Obligations.ZeroCountMeansEof := by
  intro s t r hinv hlive hlen hnext
  have howed : s.fsm = .active → 1 ≤ s.csize.toNat := fun hfsm =>
    ((hinv.run hlive (by simp [hfsm])).active_size hfsm).1
  by_cases hend : s.atEnd
  · obtain ⟨hresp, hfsm⟩ := produce_of_atEnd hend hnext
    exact ⟨iff_of_true hresp hfsm, iff_of_true hfsm hend⟩
  · obtain ⟨hresp, hfsm⟩ := produce_of_not_atEnd howed hlen hend hnext
    exact ⟨iff_of_false hresp hfsm, iff_of_false hfsm hend⟩

/-- Settles O29: the answer of EOF writes the operand and the response only. -/
theorem produceInEofAnswersZero : Obligations.ProduceInEofAnswersZero :=
  fun _ r hfsm => produce_of_eof r hfsm

/-- Settles O30: the command itself, and the step that takes it from the queue. -/
theorem produceInPoisonedFaults : Obligations.ProduceInPoisonedFaults := by
  intro s r cs hfsm
  refine ⟨produce_of_poisoned r hfsm, fun hcmds hlive hbusy => ?_⟩
  rw [step_produce hcmds hlive hbusy]
  exact produce_of_poisoned r hfsm

/-- Settles O31: right after CREATE the cursor is at the start of the source, which is its clean end. -/
theorem emptyInputReachesEof : Obligations.EmptyInputReachesEof := by
  intro s src r hbytes hterm
  have hrem : (create src s).remaining = [] := by
    rw [State.remaining, create_src, create_inPos, List.drop_zero, hbytes]
  exact ⟨_, produce_of_clean_end r (create_fsm src s) hrem hterm, rfl, rfl⟩

end Sys2Proof

/-! BUFFER_TOO_SMALL, the one error kind that is the host's (R184): how every PRODUCE ends, and what FILL makes of it. -/

namespace Sys2Proof.Machine

/-- How every PRODUCE ends, with an answer or in a wait: the host's side is as it was, and the answer is no error of the
host's (R180, R184). -/
structure EndsAsCore (s t : State) : Prop where
  interface : SameInterface s t
  resp_ne : t.resp ≠ some (.error .bufferTooSmall)

theorem CallDone.endsAsCore {owed : Nat} {s t : State} {out : List Byte} (h : CallDone owed s t out) : EndsAsCore s t :=
  ⟨h.interface, by simp [h.resp_eq]⟩

theorem CallFailed.endsAsCore {e : ErrorKind} {s t : State} (h : CallFailed e s t) (he : e ≠ .bufferTooSmall) :
    EndsAsCore s t :=
  ⟨h.interface, by simpa [h.resp_eq] using he⟩

/-- The terminator's errors are TRUNCATED_INPUT and SOURCE_FAULT; a wait has no answer (R181, R183, R200). -/
theorem EndsInside.endsAsCore {fsm : Fsm} {ctype : CType} {owed : Nat} {out : List Byte} {s t : State}
    (h : EndsInside fsm ctype owed out s t) (hs : s.resp = none) : EndsAsCore s t := by
  unfold EndsInside at h
  split at h
  case h_1 | h_2 => exact h.endsAsCore nofun
  case h_3 => exact ⟨h.interface, by simp [h.resp_eq, hs]⟩

theorem continueChunk_endsAsCore {s t : State} (hfsm : s.fsm = .active) (hs : s.resp = none)
    (h : continueChunk s = .next t) : EndsAsCore s t := by
  obtain ⟨u, hnext, hends⟩ := continueChunk_cases hfsm
  obtain rfl : u = t := by simpa [hnext] using h
  obtain ⟨out, hcall, -⟩ | ⟨-, -, hinside⟩ | ⟨-, -, -, hfail⟩ := hends
  · exact hcall.endsAsCore
  · exact hinside.endsAsCore hs
  · exact hfail.endsAsCore nofun

/-- Adoption writes nothing of the host's side (R144). -/
theorem adopted_sameInterface (i : Instr) (s : State) : SameInterface s (adopted i s) := by
  cases i <;> exact ⟨rfl, rfl, rfl, rfl, rfl⟩

theorem produce_endsAsCore {s t : State} {r : Request} (h : produce r s = .next t) : EndsAsCore (beginProduce r s) t := by
  obtain ⟨-, he⟩ | ⟨-, he⟩ | ⟨hfsm, he⟩ | ⟨-, -, -, he⟩ | ⟨-, -, ⟨e, hkind, he⟩ | ⟨-, he⟩⟩ | ⟨-, i, rest, -, he⟩ :=
    produce_cases r s <;> rw [he] at h
  · cases h
    exact ⟨⟨rfl, rfl, rfl, rfl, rfl⟩, nofun⟩
  · cases h
  · exact continueChunk_endsAsCore (s := beginProduce r s) hfsm rfl h
  · cases h
    exact ⟨⟨rfl, rfl, rfl, rfl, rfl⟩, nofun⟩
  · cases h
    refine ⟨⟨rfl, rfl, rfl, rfl, rfl⟩, ?_⟩
    obtain ⟨rfl, -⟩ | ⟨rfl, -⟩ := hkind <;> exact nofun
  · cases h
    exact ⟨⟨rfl, rfl, rfl, rfl, rfl⟩, nofun⟩
  · obtain ⟨hinterface, hresp⟩ := continueChunk_endsAsCore (adopted_fsm i _) (adopted_resp i _) h
    have hadopted := adopted_sameInterface i { beginProduce r s with inPos := s.inPos + i.headerLength }
    obtain ⟨hsrc, hlive, hreq, hfill, hcmds⟩ := hadopted.trans hinterface
    exact ⟨⟨hsrc, hlive, hreq, hfill, hcmds⟩, hresp⟩

/-- In a run, a PRODUCE that asks for a byte and answers (OK, 0) is in EOF after it (R149). -/
theorem fsm_eof_of_produce_zero {s t : State} {r : Request} (h : produce r s = .next t) (hlen : 1 ≤ r.len)
    (howed : s.fsm = .active → 1 ≤ s.csize.toNat) (hresp : t.resp = some (.ok 0)) : t.fsm = .eof := by
  by_cases hend : s.atEnd
  · exact (produce_of_atEnd hend h).2
  · exact absurd hresp (produce_of_not_atEnd howed hlen hend h).1

/-- FILL leaves the response of its PRODUCE as it was. -/
@[simp] theorem fillAfter_resp (r : Request) (filled : Nat) (t : State) : (fillAfter r filled t).resp = t.resp := by
  unfold fillAfter
  split <;> rfl

/-- FILL changes no decoder state of its own (R184). -/
@[simp] theorem fillAfter_fsm (r : Request) (filled : Nat) (t : State) : (fillAfter r filled t).fsm = t.fsm := by
  unfold fillAfter
  split <;> rfl

/-- After a PRODUCE that ended as the core's do, FILL answers BUFFER_TOO_SMALL exactly on (OK, 0) (R171, R172). -/
theorem fillAfter_bufferTooSmall_iff {t : State} (r : Request) (filled : Nat) (hfill : t.fillResp = none)
    (hcore : t.resp ≠ some (.error .bufferTooSmall)) :
    (fillAfter r filled t).fillResp = some (.error .bufferTooSmall) ↔ t.resp = some (.ok 0) := by
  unfold fillAfter
  split
  case h_1 e he => simpa [he] using hcore
  case h_2 he => simp [he]
  case h_3 n he => simp [he, hfill]
  case h_4 he => simp [he, hfill]

/-- A turn of FILL with room left is one PRODUCE into the rest of the buffer, and what FILL makes of it (R171). -/
theorem fillTurn_cases {s t : State} {r : Request} {filled : Nat} (hroom : filled < r.len)
    (h : fillTurn r filled s = .next t) :
    ∃ u, produce { len := r.len - filled, base := r.base + filled } { s with fillResp := none } = .next u ∧
      t = fillAfter r filled u := by
  rw [fillTurn, if_pos hroom] at h
  split at h
  case h_1 u hu => exact ⟨u, hu, by cases h; rfl⟩
  case h_2 | h_3 => cases h

end Sys2Proof.Machine

namespace Sys2Proof

open Machine

/-- Settles O40: every PRODUCE ends as the core's do, and the one that answers FILL (OK, 0) has left the core in EOF. -/
theorem bufferTooSmallIsFillsAlone : Obligations.BufferTooSmallIsFillsAlone := by
  refine ⟨fun s t r h => (produce_endsAsCore h).resp_ne, ?_⟩
  intro s t r filled hinv hlive hroom hturn
  obtain ⟨u, hu, rfl⟩ := fillTurn_cases hroom hturn
  obtain ⟨hinterface, hcore⟩ := produce_endsAsCore hu
  have hiff := fillAfter_bufferTooSmall_iff r filled hinterface.fillResp_eq hcore
  rw [fillAfter_resp, fillAfter_fsm]
  refine ⟨hiff, fun hfill => ?_⟩
  have howed : s.fsm = .active → 1 ≤ s.csize.toNat := fun hfsm =>
    ((hinv.run hlive (by simp [hfsm])).active_size hfsm).1
  have heof : u.fsm = .eof := fsm_eof_of_produce_zero hu (Nat.sub_pos_of_lt hroom) howed (hiff.mp hfill)
  simp [heof]

end Sys2Proof

/-! EOF and POISONED persist until CREATE or DROP (R222): what a step can be, and that a PRODUCE and a turn of FILL leave
the two states as they are. -/

namespace Sys2Proof.Machine

/-- A guard that refuses has let a command through that has a next state. -/
theorem eq_next_of_guard {b : Bool} {e : Refusal} {x : Host.Outcome State Fault Refusal} {t : State}
    (h : (if b then .refused e else x) = .next t) : b = false ∧ x = .next t := by
  cases b with
  | false => exact ⟨rfl, h⟩
  | true => cases h

/-- Everything a host command with a next state can be (R63, R198, R221): a CREATE of a block that does not wait, a DROP
of a live one, or a PRODUCE or a turn of FILL of a live one that does not wait. -/
theorem runCommand_cases {c : Command} {s t : State} (h : runCommand c s = .next t) :
    (∃ src, c = .create src ∧ s.busy = false ∧ t = create src s) ∨
    (∃ r, c = .produce r ∧ s.live = true ∧ s.busy = false ∧ produce r s = .next t) ∨
    (c = .drop ∧ s.live = true ∧ t = drop s) ∨
    (∃ r filled, c = .fill r filled ∧ s.live = true ∧ s.busy = false ∧ fillTurn r filled s = .next t) := by
  cases c with
  | create src =>
    obtain ⟨hbusy, hnext⟩ := eq_next_of_guard h
    cases hnext
    exact .inl ⟨src, rfl, hbusy, rfl⟩
  | produce r =>
    obtain ⟨hlive, hguard⟩ := eq_next_of_guard h
    obtain ⟨hbusy, hnext⟩ := eq_next_of_guard hguard
    exact .inr (.inl ⟨r, rfl, by simpa using hlive, hbusy, hnext⟩)
  | drop =>
    obtain ⟨hlive, hnext⟩ := eq_next_of_guard h
    cases hnext
    exact .inr (.inr (.inl ⟨rfl, by simpa using hlive, rfl⟩))
  | fill r filled =>
    obtain ⟨hlive, hguard⟩ := eq_next_of_guard h
    obtain ⟨hbusy, hnext⟩ := eq_next_of_guard hguard
    exact .inr (.inr (.inr ⟨r, filled, rfl, by simpa using hlive, hbusy, hnext⟩))

/-- A step does nothing, with no command pending, or runs the oldest one (R10, R63). -/
theorem step_cases {s t : State} (h : step s = .next t) :
    (s.cmds = [] ∧ t = s) ∨ ∃ c cs, s.cmds = c :: cs ∧ runCommand c { s with cmds := cs } = .next t := by
  unfold step at h
  split at h
  case h_1 hcmds =>
    cases h
    exact .inl ⟨hcmds, rfl⟩
  case h_2 c cs hcmds => exact .inr ⟨c, cs, hcmds, h⟩

/-- In EOF a PRODUCE answers and stays there; in POISONED it has no next state (R142, R147). -/
theorem produce_keeps_eof_poisoned {s t : State} {r : Request} (hfsm : s.fsm = .eof ∨ s.fsm = .poisoned)
    (h : produce r s = .next t) : t.fsm = s.fsm ∧ t.live = s.live := by
  obtain heof | hpoisoned := hfsm
  · rw [produce_of_eof r heof] at h
    cases h
    exact ⟨rfl, rfl⟩
  · simp [produce_of_poisoned r hpoisoned] at h

/-- FILL neither makes nor releases the instance. -/
@[simp] theorem fillAfter_live (r : Request) (filled : Nat) (t : State) : (fillAfter r filled t).live = t.live := by
  unfold fillAfter
  split <;> rfl

/-- A turn of FILL with no room left answers OK and asks the block for nothing (R174). -/
theorem fillTurn_of_full {s : State} {r : Request} {filled : Nat} (hfull : ¬ filled < r.len) :
    fillTurn r filled s = .next { s with fillResp := some .ok } :=
  if_neg hfull

/-- A turn of FILL is at most one PRODUCE, so it keeps what a PRODUCE keeps (R171). -/
theorem fillTurn_keeps_eof_poisoned {s t : State} {r : Request} {filled : Nat} (hfsm : s.fsm = .eof ∨ s.fsm = .poisoned)
    (h : fillTurn r filled s = .next t) : t.fsm = s.fsm ∧ t.live = s.live := by
  by_cases hroom : filled < r.len
  · obtain ⟨u, hproduce, rfl⟩ := fillTurn_cases hroom h
    rw [fillAfter_fsm, fillAfter_live]
    exact produce_keeps_eof_poisoned (s := { s with fillResp := none }) hfsm hproduce
  · rw [fillTurn_of_full hroom] at h
    cases h
    exact ⟨rfl, rfl⟩

end Sys2Proof.Machine

namespace Sys2Proof

open Machine

/-- Settles O41: a step that is neither CREATE nor DROP is idle, a PRODUCE or a turn of FILL, and each keeps both. -/
theorem eofAndPoisonedPersistUntilCreateOrDrop : Obligations.EofAndPoisonedPersistUntilCreateOrDrop := by
  intro s t hlive hfsm hstep hcreate hdrop
  suffices hkept : t.fsm = s.fsm ∧ t.live = s.live from ⟨hkept.1, hkept.2.trans hlive⟩
  obtain ⟨-, rfl⟩ | ⟨c, cs, hcmds, hrun⟩ := step_cases hstep
  · exact ⟨rfl, rfl⟩
  · obtain ⟨src, rfl, -⟩ | ⟨r, -, -, -, hproduce⟩ | ⟨rfl, -⟩ | ⟨r, filled, -, -, -, hfill⟩ := runCommand_cases hrun
    · exact absurd hcmds (hcreate src cs)
    · exact produce_keeps_eof_poisoned (s := { s with cmds := cs }) hfsm hproduce
    · exact absurd hcmds (hdrop cs)
    · exact fillTurn_keeps_eof_poisoned (s := { s with cmds := cs }) hfsm hfill

end Sys2Proof

/-! The encoder and the decoder of 30_encoding.md as arithmetic of the bytes' values, where each undoes the other (R82 to
R87, R93). -/

namespace Sys2Proof

/-- Bits put below a shifted value are added to it. -/
theorem shiftLeft_or_eq_add {b i : Nat} (h : b < 2 ^ i) (a : Nat) : (a <<< i) ||| b = a * 2 ^ i + b := by
  rw [← Nat.shiftLeft_add_eq_or_of_lt h, Nat.shiftLeft_eq]

theorem plainSize_eq_mod (b0 : Byte) : plainSize b0 = b0.toNat % 128 + 1 := by
  simp [plainSize, BitVec.extractLsb'_toNat]

theorem run2Size_eq_mod (b0 : Byte) : run2Size b0 = b0.toNat / 4 % 16 + 3 := by
  simp [run2Size, BitVec.extractLsb'_toNat, Nat.shiftRight_eq_div_pow]

theorem run3Size_eq_mod (b0 : Byte) : run3Size b0 = b0.toNat % 64 + 4 := by
  simp [run3Size, BitVec.extractLsb'_toNat]

theorem run2Offset_eq_add (b0 b1 : Byte) : run2Offset b0 b1 = b0.toNat % 4 * 256 + b1.toNat := by
  rw [run2Offset, BitVec.toNat_append, shiftLeft_or_eq_add b1.isLt]
  simp [BitVec.extractLsb'_toNat]

theorem run3Offset_eq_add (b1 b2 : Byte) : run3Offset b1 b2 = b1.toNat * 256 + b2.toNat := by
  rw [run3Offset, BitVec.toNat_append, shiftLeft_or_eq_add b2.isLt]
  rfl

theorem encode_lit {size : Nat} (h : (Instr.lit size).wellFormed = true) :
    encode (.lit size) = [BitVec.ofNat 8 (128 + (size - 1))] := by
  simp only [Instr.wellFormed, Bool.and_eq_true, decide_eq_true_eq] at h
  have hor := shiftLeft_or_eq_add (b := size - 1) (i := 7) (by omega) 1
  exact congrArg (fun n => [BitVec.ofNat 8 n]) hor

theorem encode_run2 {size off : Nat} (h : (Instr.run2 size off).wellFormed = true) :
    encode (.run2 size off) = [BitVec.ofNat 8 ((size - 3) * 4 + off / 256), BitVec.ofNat 8 (off % 256)] := by
  simp only [Instr.wellFormed, Bool.and_eq_true, decide_eq_true_eq] at h
  rw [encode, Nat.shiftRight_eq_div_pow, shiftLeft_or_eq_add (by omega), show 0xFF = 2 ^ 8 - 1 from rfl,
    Nat.and_two_pow_sub_one_eq_mod]
  rfl

theorem encode_run3 {size off : Nat} (h : (Instr.run3 size off).wellFormed = true) :
    encode (.run3 size off) =
      [BitVec.ofNat 8 (64 + (size - 4)), BitVec.ofNat 8 (off / 256), BitVec.ofNat 8 (off % 256)] := by
  simp only [Instr.wellFormed, Bool.and_eq_true, decide_eq_true_eq] at h
  have hor := shiftLeft_or_eq_add (b := size - 4) (i := 6) (by omega) 1
  rw [encode, Nat.shiftRight_eq_div_pow, show 0x40 = 1 <<< 6 from rfl, hor, show 0xFF = 2 ^ 8 - 1 from rfl,
    Nat.and_two_pow_sub_one_eq_mod]
  rfl

/-- The class of header byte 0 is the range its value lies in (R81). -/
theorem headerType_cases (b0 : Byte) :
    (headerType b0 = .plain ∧ 0x80 ≤ b0.toNat) ∨ (headerType b0 = .run3 ∧ 0x40 ≤ b0.toNat ∧ b0.toNat < 0x80) ∨
      (headerType b0 = .run2 ∧ b0.toNat < 0x40) := by
  rcases Nat.lt_or_ge b0.toNat 0x80 with h7 | h7
  · rcases Nat.lt_or_ge b0.toNat 0x40 with h6 | h6
    · exact .inr (.inr ⟨headerType_of_lt_0x40 h6, h6⟩)
    · exact .inr (.inl ⟨headerType_of_0x40_to_0x7F h6 h7, h6, h7⟩)
  · exact .inl ⟨headerType_of_ge_0x80 h7, h7⟩

/-- Everything the decoder can answer (R82 to R84, R102, R104, R105). -/
theorem decode_cases (bs : List Byte) :
    (bs = [] ∧ decode bs = .reject .noHeader) ∨
    (((∃ b0, bs = [b0] ∧ b0.toNat < 0x80) ∨ (∃ b0 b1, bs = [b0, b1] ∧ 0x40 ≤ b0.toNat ∧ b0.toNat < 0x80)) ∧
      decode bs = .reject .truncated) ∨
    (∃ b0 rest, bs = b0 :: rest ∧ 0x80 ≤ b0.toNat ∧ decode bs = .ok (.lit (plainSize b0)) rest) ∨
    (∃ b0 b1 rest, bs = b0 :: b1 :: rest ∧ b0.toNat < 0x40 ∧
      decode bs = .ok (.run2 (run2Size b0) (run2Offset b0 b1)) rest) ∨
    (∃ b0 b1 b2 rest, bs = b0 :: b1 :: b2 :: rest ∧ 0x40 ≤ b0.toNat ∧ b0.toNat < 0x80 ∧
      decode bs = .ok (.run3 (run3Size b0) (run3Offset b1 b2)) rest) := by
  cases bs with
  | nil => exact .inl ⟨rfl, rfl⟩
  | cons b0 bs =>
    refine .inr ?_
    obtain ⟨ht, h7⟩ | ⟨ht, h6, h7⟩ | ⟨ht, h6⟩ := headerType_cases b0
    · exact .inr (.inl ⟨b0, bs, rfl, h7, decode_plain ht bs⟩)
    · rcases bs with _ | ⟨b1, _ | ⟨b2, bs⟩⟩
      · exact .inl ⟨.inl ⟨b0, rfl, h7⟩, by simp only [decode, ht]⟩
      · exact .inl ⟨.inr ⟨b0, b1, rfl, h6, h7⟩, by simp only [decode, ht]⟩
      · exact .inr (.inr (.inr ⟨b0, b1, b2, bs, rfl, h6, h7, decode_run3 ht b1 b2 bs⟩))
    · cases bs with
      | nil => exact .inl ⟨.inl ⟨b0, rfl, by omega⟩, by simp only [decode, ht]⟩
      | cons b1 bs => exact .inr (.inr (.inl ⟨b0, b1, bs, rfl, h6, decode_run2 ht b1 bs⟩))

/-- The decoder's answers by kind: no header at all, a header cut short, or an instruction. -/
theorem decode_kinds (bs : List Byte) :
    bs = [] ∨ decode bs = .reject .truncated ∨ ∃ i rest, decode bs = .ok i rest := by
  obtain ⟨hnil, -⟩ | ⟨-, hd⟩ | ⟨_, _, _, _, hd⟩ | ⟨_, _, _, _, _, hd⟩ | ⟨_, _, _, _, _, _, _, hd⟩ := decode_cases bs
  · exact .inl hnil
  · exact .inr (.inl hd)
  all_goals exact .inr (.inr ⟨_, _, hd⟩)

theorem plain_wellFormed (b0 : Byte) : (Instr.lit (plainSize b0)).wellFormed = true := by
  simpa [Instr.wellFormed] using plainSize_range b0

theorem run2_wellFormed (b0 b1 : Byte) : (Instr.run2 (run2Size b0) (run2Offset b0 b1)).wellFormed = true := by
  simpa [Instr.wellFormed] using ⟨run2Size_range b0, run2Offset_le b0 b1⟩

theorem run3_wellFormed (b0 b1 b2 : Byte) : (Instr.run3 (run3Size b0) (run3Offset b1 b2)).wellFormed = true := by
  simpa [Instr.wellFormed] using ⟨run3Size_range b0, run3Offset_le b1 b2⟩

/-- What the decoder reads is well formed (R108). -/
theorem decode_wellFormed {bs rest : List Byte} {i : Instr} (h : decode bs = .ok i rest) : i.wellFormed = true := by
  obtain ⟨-, hd⟩ | ⟨-, hd⟩ | ⟨b0, rest', -, -, hd⟩ | ⟨b0, b1, rest', -, -, hd⟩ | ⟨b0, b1, b2, rest', -, -, -, hd⟩ :=
    decode_cases bs <;> rw [hd] at h <;> cases h
  · exact plain_wellFormed b0
  · exact run2_wellFormed b0 b1
  · exact run3_wellFormed b0 b1 b2

theorem encode_plainSize {b0 : Byte} (h : 0x80 ≤ b0.toNat) : encode (.lit (plainSize b0)) = [b0] := by
  have hb := b0.isLt
  rw [encode_lit (plain_wellFormed b0), plainSize_eq_mod,
    show 128 + (b0.toNat % 128 + 1 - 1) = b0.toNat by omega, BitVec.ofNat_toNat, BitVec.setWidth_eq]

theorem encode_run2Operands {b0 : Byte} (b1 : Byte) (h : b0.toNat < 0x40) :
    encode (.run2 (run2Size b0) (run2Offset b0 b1)) = [b0, b1] := by
  have hb := b1.isLt
  rw [encode_run2 (run2_wellFormed b0 b1), run2Size_eq_mod, run2Offset_eq_add,
    show (b0.toNat / 4 % 16 + 3 - 3) * 4 + (b0.toNat % 4 * 256 + b1.toNat) / 256 = b0.toNat by omega,
    show (b0.toNat % 4 * 256 + b1.toNat) % 256 = b1.toNat by omega]
  simp only [BitVec.ofNat_toNat, BitVec.setWidth_eq]

theorem encode_run3Operands {b0 : Byte} (b1 b2 : Byte) (h6 : 0x40 ≤ b0.toNat) (h7 : b0.toNat < 0x80) :
    encode (.run3 (run3Size b0) (run3Offset b1 b2)) = [b0, b1, b2] := by
  have hb1 := b1.isLt
  have hb2 := b2.isLt
  rw [encode_run3 (run3_wellFormed b0 b1 b2), run3Size_eq_mod, run3Offset_eq_add,
    show 64 + (b0.toNat % 64 + 4 - 4) = b0.toNat by omega,
    show (b1.toNat * 256 + b2.toNat) / 256 = b1.toNat by omega,
    show (b1.toNat * 256 + b2.toNat) % 256 = b2.toNat by omega]
  simp only [BitVec.ofNat_toNat, BitVec.setWidth_eq]

/-- Encoding what was decoded gives the header bytes back (R93). -/
theorem encode_decode {bs rest : List Byte} {i : Instr} (h : decode bs = .ok i rest) : encode i ++ rest = bs := by
  obtain ⟨-, hd⟩ | ⟨-, hd⟩ | ⟨b0, rest', rfl, h7, hd⟩ | ⟨b0, b1, rest', rfl, h6, hd⟩ |
    ⟨b0, b1, b2, rest', rfl, h6, h7, hd⟩ := decode_cases bs <;> rw [hd] at h <;> cases h
  · rw [encode_plainSize h7]; rfl
  · rw [encode_run2Operands b1 h6]; rfl
  · rw [encode_run3Operands b1 b2 h6 h7]; rfl

/-- Decoding an encoded header gives the instruction back (R82 to R87, R93). -/
theorem decode_encode {i : Instr} (h : i.wellFormed = true) (rest : List Byte) :
    decode (encode i ++ rest) = .ok i rest := by
  cases i with
  | lit size =>
    rw [encode_lit h]
    simp only [Instr.wellFormed, Bool.and_eq_true, decide_eq_true_eq] at h
    have hb : (BitVec.ofNat 8 (128 + (size - 1))).toNat = 128 + (size - 1) := by simp; omega
    rw [List.cons_append, List.nil_append, decode_plain (headerType_of_ge_0x80 (by omega)), plainSize_eq_mod, hb]
    congr 2
    omega
  | run2 size off =>
    rw [encode_run2 h]
    simp only [Instr.wellFormed, Bool.and_eq_true, decide_eq_true_eq] at h
    have hb0 : (BitVec.ofNat 8 ((size - 3) * 4 + off / 256)).toNat = (size - 3) * 4 + off / 256 := by simp; omega
    have hb1 : (BitVec.ofNat 8 (off % 256)).toNat = off % 256 := by simp
    rw [List.cons_append, List.cons_append, List.nil_append, decode_run2 (headerType_of_lt_0x40 (by omega)),
      run2Size_eq_mod, run2Offset_eq_add, hb0, hb1]
    congr 2 <;> omega
  | run3 size off =>
    rw [encode_run3 h]
    simp only [Instr.wellFormed, Bool.and_eq_true, decide_eq_true_eq] at h
    have hb0 : (BitVec.ofNat 8 (64 + (size - 4))).toNat = 64 + (size - 4) := by simp; omega
    have hb1 : (BitVec.ofNat 8 (off / 256)).toNat = off / 256 := by simp; omega
    have hb2 : (BitVec.ofNat 8 (off % 256)).toNat = off % 256 := by simp
    rw [List.cons_append, List.cons_append, List.cons_append, List.nil_append,
      decode_run3 (headerType_of_0x40_to_0x7F (by omega) (by omega)), run3Size_eq_mod, run3Offset_eq_add, hb0, hb1, hb2]
    congr 2 <;> omega

/-- Settles O1: the header byte 0 written has the chunk's class, and its operands are read back from the bytes' values. -/
theorem decodeOfEncodeIsTheInstruction : Obligations.DecodeOfEncodeIsTheInstruction :=
  fun _ rest hwf => decode_encode hwf rest

/-- Settles O2: each header the decoder accepts is rewritten byte by byte. -/
theorem encodeOfDecodeIsTheBytes : Obligations.EncodeOfDecodeIsTheBytes :=
  fun _ _ _ hdec => ⟨decode_wellFormed hdec, encode_decode hdec⟩

/-- Settles O6: the rejections are two of the decoder's five answers, each with its own inputs. -/
theorem onlyIncompleteHeadersAreRejected : Obligations.OnlyIncompleteHeadersAreRejected := by
  intro bs
  obtain ⟨rfl, hd⟩ | ⟨hshort, hd⟩ | ⟨b0, rest, rfl, h7, hd⟩ | ⟨b0, b1, rest, rfl, h6, hd⟩ |
    ⟨b0, b1, b2, rest, rfl, h6, h7, hd⟩ := decode_cases bs <;> rw [hd]
  · simp
  · refine ⟨?_, by simpa using hshort⟩
    obtain ⟨b0, rfl, -⟩ | ⟨b0, b1, rfl, -⟩ := hshort <;> simp
  · simp [h7]
  · simp [show ¬ 0x40 ≤ b0.toNat by omega]
  · simp

/-- Settles O7: the decoder is run on the three words. -/
theorem sampleWordsDecode : Obligations.SampleWordsDecode := by
  refine ⟨?_, ?_, ?_⟩ <;> decide

end Sys2Proof

/-! The reference decoding of a source (R152): each part of it extends the output it is given, and a chunk of it can be
cut at any byte. -/

namespace Sys2Proof.Machine

/-- The output where a chunk of the reference decoding leaves off. -/
def RefStep.out : RefStep → List Byte
  | .more _ o => o
  | .stop r => r.out

/-- The reference decoding from the end of a chunk on. -/
def RefStep.resume (term : Terminator) (fuel : Nat) : RefStep → RefResult
  | .more rest o => refLoop term fuel rest o
  | .stop r => r

@[simp] theorem RefStep.resume_more (term : Terminator) (fuel : Nat) (rest o : List Byte) :
    (RefStep.more rest o).resume term fuel = refLoop term fuel rest o := rfl

theorem refLoop_of_decode {bs rest : List Byte} {i : Instr} (h : decode bs = .ok i rest) (term : Terminator) (fuel : Nat)
    (o : List Byte) : refLoop term (fuel + 1) bs o = (refChunk term i rest o).resume term fuel := by
  rw [refLoop]
  simp only [h]
  cases refChunk term i rest o <;> rfl

theorem refLoop_nil (term : Terminator) (fuel : Nat) (o : List Byte) :
    refLoop term (fuel + 1) [] o = { ended := refEndAtHeader term, out := o } := rfl

theorem refLoop_of_truncated {bs : List Byte} (h : decode bs = .reject .truncated) (term : Terminator) (fuel : Nat)
    (o : List Byte) : refLoop term (fuel + 1) bs o = { ended := refEndInside term, out := o } := by
  rw [refLoop]
  simp only [h]

/-- Short of the clean end, the terminator at a header ends the decoding as it does inside a chunk (R183). -/
theorem refEndAtHeader_eq_refEndInside {term : Terminator} (h : term ≠ .eos) : refEndAtHeader term = refEndInside term := by
  cases term with
  | eos => exact absurd rfl h
  | fault | never => rfl

theorem refPlain_prefix (term : Terminator) (n : Nat) (bs o : List Byte) : o <+: (refPlain term n bs o).out := by
  induction n generalizing bs o with
  | zero => exact List.prefix_rfl
  | succ n ih =>
    cases bs with
    | nil => exact List.prefix_rfl
    | cons b bs => exact (List.prefix_append o [b]).trans (ih bs _)

theorem refRun_prefix (off n : Nat) (bs o : List Byte) : o <+: (refRun off n bs o).out := by
  induction n generalizing o with
  | zero => exact List.prefix_rfl
  | succ n ih =>
    rw [refRun]
    split
    · exact (List.prefix_append o _).trans (ih _)
    · exact List.prefix_rfl

theorem refChunk_prefix (term : Terminator) (i : Instr) (bs o : List Byte) : o <+: (refChunk term i bs o).out := by
  cases i with
  | lit size => exact refPlain_prefix term size bs o
  | run2 size off | run3 size off => exact refRun_prefix off size bs o

theorem refLoop_prefix (term : Terminator) (fuel : Nat) (bs o : List Byte) : o <+: (refLoop term fuel bs o).out := by
  induction fuel generalizing bs o with
  | zero => exact List.prefix_rfl
  | succ fuel ih =>
    rw [refLoop]
    split
    case h_1 | h_2 => exact List.prefix_rfl
    case h_3 i rest _ =>
      have hchunk := refChunk_prefix term i rest o
      split
      case h_1 rest' o' hmore => rw [hmore] at hchunk; exact hchunk.trans (ih rest' o')
      case h_2 r hstop => rw [hstop] at hchunk; exact hchunk

theorem RefStep.out_prefix_resume (x : RefStep) (term : Terminator) (fuel : Nat) : x.out <+: (x.resume term fuel).out := by
  cases x with
  | more rest o => exact refLoop_prefix term fuel rest o
  | stop r => exact List.prefix_rfl

/-- A payload whose first `n` bytes are there, cut after them. -/
theorem refPlain_add (term : Terminator) {n : Nat} (m : Nat) {bs : List Byte} (h : n ≤ bs.length) (o : List Byte) :
    refPlain term (n + m) bs o = refPlain term m (bs.drop n) (o ++ bs.take n) := by
  induction n generalizing bs o with
  | zero => simp
  | succ n ih =>
    cases bs with
    | nil => simp at h
    | cons b bs => rw [Nat.add_right_comm, refPlain, ih (by simpa using h)]; simp

/-- A payload that is not all there: every byte there is output, and the terminator decides. -/
theorem refPlain_short (term : Terminator) {n : Nat} {bs : List Byte} (h : bs.length < n) (o : List Byte) :
    refPlain term n bs o = .stop { ended := refEndInside term, out := o ++ bs } := by
  induction n generalizing bs o with
  | zero => simp at h
  | succ n ih =>
    cases bs with
    | nil => simp [refPlain]
    | cons b bs => rw [refPlain, ih (by simpa using h)]; simp

/-- A run cut after the bytes `out`, each of which is the one `off + 1` places before it. -/
theorem refRun_add {off : Nat} (m : Nat) (bs : List Byte) {o out : List Byte} (hoff : off < o.length)
    (hout : ∀ k (hk : k < out.length), (o ++ out)[o.length + k - 1 - off]? = some out[k]) :
    refRun off (out.length + m) bs o = refRun off m bs (o ++ out) := by
  induction out generalizing o with
  | nil => simp
  | cons b out ih =>
    have hb : o.getD (o.length - 1 - off) 0#8 = b := by
      have h0 := hout 0 (by simp)
      rw [Nat.add_zero, List.getElem?_append_left (by omega)] at h0
      rw [List.getD_eq_getElem?_getD, h0]
      rfl
    have happ : o ++ [b] ++ out = o ++ b :: out := by simp
    rw [List.length_cons, Nat.add_right_comm, refRun, if_pos hoff, hb, ih (by simp; omega), happ]
    intro k hk
    have hk1 := hout (k + 1) (by simpa using hk)
    rw [happ, List.length_append, List.length_singleton, Nat.add_assoc, Nat.add_comm 1 k]
    exact hk1

/-- A run whose offset reaches before the output is INVALID_OFFSET at its first byte. -/
theorem refRun_invalid {off n : Nat} {o : List Byte} (bs : List Byte) (hoff : o.length ≤ off) (hn : 1 ≤ n) :
    refRun off n bs o = .stop { ended := .error .invalidOffset, out := o } := by
  obtain ⟨m, rfl⟩ := Nat.exists_eq_add_of_le' hn
  rw [refRun, if_neg (Nat.not_lt.mpr hoff)]

end Sys2Proof.Machine

/-! A run of the machine against the reference decoding (R153): after every call that answers OK the block stands at a place
of the decoding, and its window holds the newest of the bytes delivered (R37 (d)). -/

namespace Sys2Proof.Machine

/-- The window holds the newest of the bytes `o` produced since CREATE, the last of them at distance 0 (R37 (d)). -/
structure HoldsNewest (s : State) (o : List Byte) : Prop where
  winGet_eq : ∀ d : BitVec 16, winGet d s = o.reverse[d.toNat]?
  outCount_eq : s.outCount = o.length

theorem HoldsNewest.lt_hist_iff {s : State} {o : List Byte} (h : HoldsNewest s o) (d : BitVec 16) :
    d.toNat < s.hist.toNat ↔ d.toNat < o.length := by
  rw [← winGet_isSome_iff, h.winGet_eq, isSome_getElem?, List.length_reverse]

/-- Bytes pushed are the newest, the others lie behind them (R55). -/
theorem HoldsNewest.append {s t : State} {o out : List Byte} (h : HoldsNewest s o) (hp : Pushed s t out)
    (htick : t.tick = s.tick) (hlen : out.length < Config.windowSize) : HoldsNewest t (o ++ out) where
  winGet_eq := by
    intro d
    rw [List.reverse_append]
    rcases Nat.lt_or_ge d.toNat out.length with hnew | hold
    · have hget := hp.winGet_newest hlen.le (k := out.length - 1 - d.toNat) (by omega)
      rw [show out.length - 1 - (out.length - 1 - d.toNat) = d.toNat by omega, BitVec.ofNat_toNat,
        BitVec.setWidth_eq] at hget
      rw [hget, List.getElem?_append_left (by simpa using hnew), List.getElem?_reverse hnew,
        List.getElem?_eq_getElem]
    · have hd : (BitVec.ofNat 16 (d.toNat - out.length)).toNat = d.toNat - out.length := by
        rw [BitVec.toNat_ofNat, Nat.mod_eq_of_lt (by omega)]
      have hget := hp.winGet_older htick (d := BitVec.ofNat 16 (d.toNat - out.length))
        (by rw [hd, Nat.sub_add_cancel hold]; exact d.isLt)
      rw [hd, Nat.sub_add_cancel hold, BitVec.ofNat_toNat, BitVec.setWidth_eq, h.winGet_eq, hd] at hget
      rw [hget, List.getElem?_append_right (by simpa using hold), List.length_reverse]
  outCount_eq := by rw [hp.outCount_eq, h.outCount_eq, List.length_append]

/-- Right after CREATE nothing is held. -/
theorem holdsNewest_create (src : Source) (s : State) : HoldsNewest (create src s) [] where
  winGet_eq := fun d => (winGet_eq_none d _).mpr (by simp)
  outCount_eq := rfl

/-- The bytes of a run, each taken from the output so far as the reference decoding takes it (R124, R152). -/
theorem RunBytes.getElem?_eq {s : State} {o out : List Byte} (hb : RunBytes s.coff s out) (h : HoldsNewest s o)
    (hoff : s.coff.toNat < o.length) (k : Nat) (hk : k < out.length) :
    (o ++ out)[o.length + k - 1 - s.coff.toNat]? = some out[k] := by
  obtain ⟨hhistory, hrun⟩ := hb k hk
  have hc := s.coff.isLt
  rcases Nat.lt_or_ge s.coff.toNat k with hlt | hge
  · rw [hrun hlt, List.getElem?_append_right (by omega),
      show o.length + k - 1 - s.coff.toNat - o.length = k - 1 - s.coff.toNat by omega, List.getElem?_eq_getElem]
  · rw [← hhistory hge, h.winGet_eq, BitVec.toNat_ofNat, Nat.mod_eq_of_lt (by omega),
      List.getElem?_reverse (by omega), List.getElem?_append_left (by omega)]
    congr 1
    omega

/-- What the reference decoding makes of the bytes the active chunk still owes, from the output `o` on. -/
def State.refOwed (s : State) (o : List Byte) : RefStep :=
  match s.ctype with
  | .plain => refPlain s.src.term s.csize.toNat s.remaining o
  | .run2 | .run3 => refRun s.coff.toNat s.csize.toNat s.remaining o

theorem State.refOwed_of_plain {s : State} (h : s.ctype = .plain) (o : List Byte) :
    s.refOwed o = refPlain s.src.term s.csize.toNat s.remaining o := by
  simp only [State.refOwed, h]

theorem State.refOwed_of_run {s : State} (h : s.ctype ≠ .plain) (o : List Byte) :
    s.refOwed o = refRun s.coff.toNat s.csize.toNat s.remaining o := by
  cases hc : s.ctype <;> simp only [State.refOwed, hc]
  exact absurd hc h

theorem State.refOwed_prefix (s : State) (o : List Byte) : o <+: (s.refOwed o).out := by
  by_cases hc : s.ctype = .plain
  · rw [State.refOwed_of_plain hc]
    exact refPlain_prefix _ _ _ _
  · rw [State.refOwed_of_run hc]
    exact refRun_prefix _ _ _ _

/-- A chunk that owes nothing is over. -/
theorem State.refOwed_of_owed_zero {s : State} (h : s.csize.toNat = 0) (o : List Byte) :
    s.refOwed o = .more s.remaining o := by
  by_cases hc : s.ctype = .plain
  · rw [State.refOwed_of_plain hc, h, refPlain]
  · rw [State.refOwed_of_run hc, h, refRun]

/-- The offset of a well-formed run fits the register `coff` (R25, R86, R87). -/
theorem adopted_coff_toNat {i : Instr} {d : Nat} (hwf : i.wellFormed = true)
    (hi : i = .run2 i.size d ∨ i = .run3 i.size d) (s : State) : (adopted i s).coff.toNat = d := by
  obtain ⟨-, -, hd, hcoff⟩ := run_operands_fit hwf hi
  rw [hcoff, BitVec.toNat_ofNat, Nat.mod_eq_of_lt hd]

@[simp] theorem adopted_src (i : Instr) (s : State) : (adopted i s).src = s.src := by cases i <;> rfl

@[simp] theorem adopted_remaining (i : Instr) (s : State) : (adopted i s).remaining = s.remaining := by cases i <;> rfl

/-- Adopting an instruction makes the active chunk the one the reference decoding has just read (R144, R152). -/
theorem refOwed_adopted {bs rest : List Byte} {i : Instr} (h : decode bs = .ok i rest) (s : State) (o : List Byte) :
    (adopted i s).refOwed o = refChunk s.src.term i s.remaining o := by
  have hsize := adopted_csize_toNat_of_decode h s
  have hwf := decode_wellFormed h
  cases i with
  | lit size =>
    rw [State.refOwed_of_plain rfl, hsize, adopted_src, adopted_remaining]
    rfl
  | run2 size off =>
    rw [State.refOwed_of_run (by rw [adopted_ctype]; nofun), hsize, adopted_coff_toNat hwf (.inl rfl), adopted_remaining]
    rfl
  | run3 size off =>
    rw [State.refOwed_of_run (by rw [adopted_ctype]; nofun), hsize, adopted_coff_toNat hwf (.inr rfl), adopted_remaining]
    rfl

/-- Where a block that has produced `o` stands in the reference decoding of its source: before a header, inside a chunk that
still owes bytes, or at the clean end. -/
inductive RefPlace (src : Source) (s : State) (o : List Byte) : Prop
  | header (fuel : Nat) (hfsm : s.fsm = .noChunk) (hfuel : s.remaining.length < fuel)
      (href : decodeRef src = refLoop src.term fuel s.remaining o)
  | chunk (fuel : Nat) (hfsm : s.fsm = .active) (howed : 1 ≤ s.csize.toNat) (hfuel : s.remaining.length < fuel)
      (href : decodeRef src = (s.refOwed o).resume src.term fuel)
  | theEnd (hfsm : s.fsm = .eof) (href : decodeRef src = { ended := .eof, out := o })

/-- A live block that does not wait and, having produced `o` from `src`, goes on as the reference decoding does (R153). -/
structure Follows (src : Source) (s : State) (o : List Byte) : Prop where
  live_eq : s.live = true
  busy_eq : s.busy = false
  src_eq : s.src = src
  newest : HoldsNewest s o
  place : RefPlace src s o

/-- What a block has produced is where the reference decoding begins. -/
theorem Follows.out_prefix {src : Source} {s : State} {o : List Byte} (h : Follows src s o) : o <+: (decodeRef src).out := by
  obtain ⟨fuel, -, -, href⟩ | ⟨fuel, -, -, -, href⟩ | ⟨-, href⟩ := h.place <;> rw [href]
  · exact refLoop_prefix _ _ _ _
  · exact (s.refOwed_prefix o).trans (RefStep.out_prefix_resume _ _ _)

theorem follows_create (src : Source) (s : State) : Follows src (create src s) [] where
  live_eq := rfl
  busy_eq := rfl
  src_eq := rfl
  newest := holdsNewest_create src s
  place := .header (src.bytes.length + 1) rfl (Nat.lt_succ_self _) rfl

/-- How a PRODUCE of a block that follows the reference decoding ends (R153): with `out` delivered, still following; with
the error the decoding ends with; or in the wait at which the decoding hangs. -/
inductive Answers (src : Source) (r : Request) (s t : State) (o : List Byte) : Prop
  | ok (out : List Byte) (hresp : t.resp = some (.ok out.length)) (hreq : t.req = r)
      (hbuf : Written (beginProduce r s) t out) (hlen : out.length ≤ r.len)
      (heof : 1 ≤ r.len → (out = [] ↔ t.fsm = .eof)) (hfollows : Follows src t (o ++ out))
  | failed (e : ErrorKind) (hresp : t.resp = some (.error e)) (hend : (decodeRef src).ended = .error e) (hfailed : t.failed)
  | hung (hresp : t.resp = none) (hend : (decodeRef src).ended = .hang) (hwaits : t.waiting)

/-- A call that is done has taken the reference decoding as far as the active chunk's bytes (R143, R148). -/
theorem CallDone.refOwed_eq {s t : State} {o out : List Byte} (h : CallDone s.csize.toNat s t out)
    (hctype : t.ctype = s.ctype) (hcoff : t.coff = s.coff) (hnew : HoldsNewest s o)
    (hcases : (s.ctype = .plain ∧ out = s.remaining.take (produceCount s) ∧ produceCount s ≤ s.remaining.length ∧
        t.inPos = s.inPos + produceCount s) ∨
      (s.ctype ≠ .plain ∧ RunBytes s.coff s out ∧ t.inPos = s.inPos ∧
        (produceCount s = 0 ∨ s.coff.toNat < s.hist.toNat))) :
    s.refOwed o = t.refOwed (o ++ out) ∧ t.remaining.length ≤ s.remaining.length := by
  have hcount : out.length = produceCount s := h.count
  have howed : s.csize.toNat = out.length + t.csize.toNat := by
    have hle : out.length ≤ s.csize.toNat := hcount ▸ Nat.min_le_left _ _
    rw [h.owes]
    omega
  have hsrc := h.interface.src_eq
  obtain ⟨hplain, hout, hthere, hpos⟩ | ⟨hrun, hbytes, hpos, hheld⟩ := hcases
  · have hrem : t.remaining = s.remaining.drop (produceCount s) := by
      rw [State.remaining, hsrc, hpos, State.remaining, List.drop_drop]
    rw [State.refOwed_of_plain hplain, State.refOwed_of_plain (hctype.trans hplain), howed, hrem, hsrc, hcount,
      refPlain_add _ _ hthere, ← hout]
    exact ⟨rfl, by simp⟩
  · have hrem : t.remaining = s.remaining := by rw [State.remaining, hsrc, hpos, State.remaining]
    rw [State.refOwed_of_run hrun, State.refOwed_of_run (hctype ▸ hrun), howed, hrem, hcoff]
    refine ⟨?_, le_rfl⟩
    rcases Nat.eq_zero_or_pos out.length with hzero | hpos
    · rw [List.eq_nil_of_length_eq_zero hzero]
      simp
    · have hoff : s.coff.toNat < o.length := (hnew.lt_hist_iff s.coff).mp (hheld.resolve_left (by omega))
      exact refRun_add _ _ hoff (hbytes.getElem?_eq hnew hoff)

/-- After a call that is done the block still follows the reference decoding. -/
theorem Follows.of_callDone {src : Source} {s t : State} {o out : List Byte} {fuel : Nat} (h : Follows src s o)
    (hcall : CallDone s.csize.toNat s t out) (hfuel : t.remaining.length < fuel)
    (href : decodeRef src = (t.refOwed (o ++ out)).resume src.term fuel) : Follows src t (o ++ out) where
  live_eq := hcall.interface.live_eq.trans h.live_eq
  busy_eq := hcall.busy_eq.trans h.busy_eq
  src_eq := hcall.interface.src_eq.trans h.src_eq
  newest := by
    have hle : out.length ≤ s.csize.toNat := hcall.count ▸ Nat.min_le_left _ _
    have hlt := s.csize.isLt
    refine h.newest.append hcall.window hcall.tick_eq ?_
    rw [Config.windowSize]
    omega
  place := by
    have hfsm := hcall.fsm_eq
    have howes := hcall.owes
    have hle : out.length ≤ s.csize.toNat := hcall.count ▸ Nat.min_le_left _ _
    split at hfsm
    · rw [State.refOwed_of_owed_zero (by omega)] at href
      exact .header fuel hfsm hfuel href
    · exact .chunk fuel hfsm (by omega) hfuel href

/-- The terminator ends a call inside a chunk or a header as it ends the reference decoding there (R153). -/
theorem EndsInside.answers {src : Source} {r : Request} {s s' t : State} {o out o' : List Byte} {fsm : Fsm} {ctype : CType}
    {owed : Nat} (h : EndsInside fsm ctype owed out s t) (hlive : s.live = true) (hresp : s.resp = none)
    (hsrc : s.src = src) (href : decodeRef src = { ended := refEndInside src.term, out := o' }) :
    Answers src r s' t o := by
  unfold EndsInside at h
  rw [hsrc] at h
  split at h
  case h_1 hterm | h_2 hterm =>
    exact .failed _ h.resp_eq (by rw [href, hterm]; rfl) ⟨h.interface.live_eq.trans hlive, h.fsm_eq⟩
  case h_3 hterm =>
    exact .hung (h.resp_eq.trans hresp) (by rw [href, hterm]; rfl) ⟨h.interface.live_eq.trans hlive, h.busy_eq⟩

/-- A call with an active chunk, of a block that follows the reference decoding. -/
theorem Follows.continueChunk_answers {src : Source} {s : State} {o : List Byte} {fuel : Nat} (h : Follows src s o)
    (hresp : s.resp = none) (hfsm : s.fsm = .active) (howed : 1 ≤ s.csize.toNat) (hfuel : s.remaining.length < fuel)
    (href : decodeRef src = (s.refOwed o).resume src.term fuel) :
    ∃ t, continueChunk s = .next t ∧ Answers src s.req s t o := by
  obtain ⟨t, hnext, hends⟩ := continueChunk_cases hfsm
  refine ⟨t, hnext, ?_⟩
  obtain ⟨out, hcall, hctype, hcoff, hcases⟩ | ⟨hplain, hshort, hinside⟩ | ⟨hrun, hasked, hout, hfail⟩ := hends
  · obtain ⟨hadvance, hle⟩ := hcall.refOwed_eq hctype hcoff h.newest hcases
    rw [hadvance] at href
    have hcount := hcall.count
    refine .ok out hcall.resp_eq hcall.interface.req_eq ⟨hcall.buffer.bytes, hcall.buffer.untouched⟩
      (hcount ▸ Nat.min_le_right _ _) (fun hlen => ?_) (h.of_callDone hcall (by omega) href)
    refine iff_of_false (fun hnil => ?_) (continueChunk_fsm_ne_eof hfsm hnext)
    rw [hnil, List.length_nil] at hcount
    omega
  · have hlt : s.remaining.length < s.csize.toNat := hshort.trans_le (Nat.min_le_left _ _)
    rw [State.refOwed_of_plain hplain, h.src_eq, refPlain_short _ hlt] at href
    exact hinside.answers h.live_eq hresp h.src_eq href
  · have hoff : o.length ≤ s.coff.toNat := by
      rw [← Nat.not_lt, ← h.newest.lt_hist_iff, Nat.not_lt]
      exact hout
    rw [State.refOwed_of_run hrun, refRun_invalid _ hoff howed] at href
    exact .failed _ hfail.resp_eq (by rw [href]; rfl) ⟨hfail.interface.live_eq.trans h.live_eq, hfail.fsm_eq⟩

/-- The host's side, its memory included, is no part of it. -/
theorem Follows.hostSide {src : Source} {s : State} {o : List Byte} (h : Follows src s o) (req : Request)
    (resp : Option Response) (fillResp : Option FillResponse) (buf : Memory) (cmds : List Command) :
    Follows src { s with req := req, resp := resp, fillResp := fillResp, buf := buf, cmds := cmds } o where
  live_eq := h.live_eq
  busy_eq := h.busy_eq
  src_eq := h.src_eq
  newest := ⟨h.newest.winGet_eq, h.newest.outCount_eq⟩
  place := by
    obtain ⟨fuel, hfsm, hfuel, href⟩ | ⟨fuel, hfsm, howed, hfuel, href⟩ | ⟨hfsm, href⟩ := h.place
    · exact .header fuel hfsm hfuel href
    · exact .chunk fuel hfsm howed hfuel href
    · exact .theEnd hfsm href

theorem Follows.begin {src : Source} {s : State} {o : List Byte} (h : Follows src s o) (r : Request) :
    Follows src (beginProduce r s) o :=
  h.hostSide r none s.fillResp s.buf s.cmds

/-- After a header the block follows the decoding of the chunk it has adopted (R144). -/
theorem Follows.adopt {src : Source} {s : State} {o rest : List Byte} {i : Instr} {fuel : Nat} (h : Follows src s o)
    (hdec : decode s.remaining = .ok i rest) (hfuel : s.remaining.length < fuel + 1)
    (href : decodeRef src = refLoop src.term (fuel + 1) s.remaining o) :
    let t := adopted i { s with inPos := s.inPos + i.headerLength }
    Follows src t o ∧ 1 ≤ t.csize.toNat ∧ t.remaining.length < fuel ∧
      decodeRef src = (t.refOwed o).resume src.term fuel := by
  intro t
  obtain ⟨hsize, -⟩ := decode_ranges hdec
  have howed : 1 ≤ t.csize.toNat := by rw [adopted_csize_toNat_of_decode hdec]; exact hsize
  have hrem : t.remaining = rest := by rw [adopted_remaining, remaining_advance, decode_rest hdec]
  have hlen : t.remaining.length < fuel := by
    have hheader := decode_length hdec
    have hpos : 1 ≤ i.headerLength := by cases i <;> exact Nat.le_add_left 1 _
    rw [hrem, decode_rest hdec, List.length_drop]
    omega
  have hchunk : decodeRef src = (t.refOwed o).resume src.term fuel := by
    rw [href, refLoop_of_decode hdec, refOwed_adopted hdec, remaining_advance, ← decode_rest hdec, h.src_eq]
  refine ⟨⟨?_, ?_, ?_, ?_, .chunk fuel (adopted_fsm i _) howed hlen hchunk⟩, howed, hlen, hchunk⟩
  · cases i <;> exact h.live_eq
  · cases i <;> exact h.busy_eq
  · rw [adopted_src]; exact h.src_eq
  · obtain ⟨hget, hcount⟩ := h.newest
    cases i <;> exact ⟨hget, hcount⟩

/-- Where the host's memory is as it was, nothing has been written to it. -/
theorem Written.of_buf_eq {s t : State} (h : t.buf = s.buf) : Written s t [] :=
  ⟨nofun, fun _ _ => by rw [h]⟩

/-- A PRODUCE in NO_CHUNK that meets no whole header and no clean end ends as the terminator says (R102, R104, R105, R183). -/
theorem produce_of_header_cut {s : State} (r : Request) (hfsm : s.fsm = .noChunk)
    (hcut : decode s.remaining = .reject .truncated ∨ (s.remaining = [] ∧ s.src.term ≠ .eos)) :
    ∃ t, produce r s = .next t ∧ EndsInside .noChunk s.ctype s.csize.toNat [] (beginProduce r s) t := by
  obtain ⟨hf, -⟩ | ⟨hf, -⟩ | ⟨hf, -⟩ | ⟨-, hnil, hterm, -⟩ | ⟨-, -, ⟨e, hkind, he⟩ | ⟨hterm, he⟩⟩ |
    ⟨-, i, rest, hdec, -⟩ := produce_cases r s
  case inr.inr.inr.inl =>
    rw [hnil] at hcut
    simp [decode, hterm] at hcut
  case inr.inr.inr.inr.inl.inl =>
    refine ⟨_, he, ?_⟩
    have hfail : CallFailed e (beginProduce r s)
        (enterError e { beginProduce r s with inPos := s.inPos + s.remaining.length }) :=
      callFailed_of_written (out := []) e _ s.buf ⟨nofun, fun _ _ => rfl⟩ (Nat.zero_le _)
    unfold EndsInside
    obtain ⟨rfl, hterm, -⟩ | ⟨rfl, hterm⟩ := hkind <;> rw [beginProduce_src, hterm] <;> exact hfail
  case inr.inr.inr.inr.inl.inr =>
    refine ⟨_, he, ?_⟩
    unfold EndsInside
    rw [beginProduce_src, hterm]
    exact ⟨hfsm, rfl, rfl, rfl, rfl, rfl, rfl, rfl, rfl, .of_buf_eq rfl, ⟨rfl, rfl, rfl, rfl, rfl⟩, rfl, rfl, rfl⟩
  case inr.inr.inr.inr.inr =>
    rw [hdec] at hcut
    obtain hcut | ⟨hnil, -⟩ := hcut
    · cases hcut
    · simp [hnil, decode] at hdec
  all_goals simp [hfsm] at hf

/-- Only the host's memory before the call matters to what an answer says of it. -/
theorem Answers.of_buf_eq {src : Source} {r : Request} {s s' t : State} {o : List Byte} (h : Answers src r s t o)
    (hb : s.buf = s'.buf) : Answers src r s' t o := by
  obtain ⟨out, hresp, hreq, hbuf, hlen, heof, hfollows⟩ | ⟨e, hresp, hend, hfailed⟩ | ⟨hresp, hend, hwaits⟩ := h
  · refine .ok out hresp hreq ⟨hbuf.bytes, fun a ha => (hbuf.untouched a ha).trans ?_⟩ hlen heof hfollows
    rw [beginProduce_buf, hb]
    rfl
  · exact .failed e hresp hend hfailed
  · exact .hung hresp hend hwaits

/-- At the clean end a PRODUCE answers (OK, 0) and the block still follows the decoding (R142, R102). -/
theorem Follows.at_end {src : Source} {s : State} {o : List Byte} (h : Follows src s o) (r : Request)
    (href : decodeRef src = { ended := .eof, out := o }) :
    Answers src r s { s with req := r, resp := some (.ok 0), fsm := .eof } o := by
  refine .ok [] rfl rfl (.of_buf_eq rfl) (Nat.zero_le _) (fun _ => iff_of_true rfl rfl) ?_
  rw [List.append_nil]
  exact ⟨h.live_eq, h.busy_eq, h.src_eq, ⟨h.newest.winGet_eq, h.newest.outCount_eq⟩, .theEnd rfl href⟩

/-- Every PRODUCE of a block that follows the reference decoding ends as the decoding goes on (R153). -/
theorem Follows.produce_answers {src : Source} {s : State} {o : List Byte} (h : Follows src s o) (r : Request) :
    ∃ t, produce r s = .next t ∧ Answers src r s t o := by
  obtain ⟨fuel, hfsm, hfuel, href⟩ | ⟨fuel, hfsm, howed, hfuel, href⟩ | ⟨hfsm, href⟩ := h.place
  · obtain ⟨fuel, rfl⟩ := Nat.exists_eq_add_of_le' (Nat.one_le_of_lt hfuel)
    have hinside : ∀ {o'}, decodeRef src = { ended := refEndInside src.term, out := o' } →
        (decode s.remaining = .reject .truncated ∨ (s.remaining = [] ∧ s.src.term ≠ .eos)) →
        ∃ t, produce r s = .next t ∧ Answers src r s t o := by
      intro o' hend hcut
      obtain ⟨t, hnext, ht⟩ := produce_of_header_cut r hfsm hcut
      exact ⟨t, hnext, ht.answers h.live_eq rfl h.src_eq hend⟩
    obtain hnil | hdec | ⟨i, rest, hdec⟩ := decode_kinds s.remaining
    · rw [hnil, refLoop_nil] at href
      by_cases hterm : src.term = .eos
      · rw [hterm] at href
        exact ⟨_, produce_of_clean_end r hfsm hnil (h.src_eq ▸ hterm), h.at_end r href⟩
      · refine hinside (o' := o) ?_ (.inr ⟨hnil, h.src_eq ▸ hterm⟩)
        rw [href, refEndAtHeader_eq_refEndInside hterm]
    · rw [refLoop_of_truncated hdec] at href
      exact hinside href (.inl hdec)
    · obtain ⟨hf, howed, hlen, hchunk⟩ := (h.begin r).adopt hdec hfuel href
      obtain ⟨t, hnext, ht⟩ := hf.continueChunk_answers (adopted_resp i _) (adopted_fsm i _) howed hlen hchunk
      rw [adopted_req] at ht
      exact ⟨t, (produce_of_decode r hfsm hdec).trans hnext, ht.of_buf_eq (adopted_buf i _)⟩
  · obtain ⟨t, hnext, ht⟩ := (h.begin r).continueChunk_answers rfl hfsm howed hfuel href
    exact ⟨t, (produce_of_active r hfsm).trans hnext, ht.of_buf_eq rfl⟩
  · refine ⟨_, produce_of_eof r hfsm, ?_⟩
    have hend := h.at_end r href
    rw [← hfsm] at hend
    exact hend

end Sys2Proof.Machine

/-! The host's calls from CREATE on against the reference decoding: the four parts of split invariance (R153) and the window
(R37 (d)). -/

namespace Sys2Proof.Machine

/-- What a call has written to BUF is what the host finds delivered (R32, R60). -/
theorem delivered_of_written {r : Request} {s t : State} {out : List Byte} (hresp : t.resp = some (.ok out.length))
    (hreq : t.req = r) (hbuf : Written (beginProduce r s) t out) : delivered t = out.map some := by
  simp only [delivered, hresp]
  refine List.ext_getElem (by simp) fun k hk _ => ?_
  rw [List.getElem_map, List.getElem_map, List.getElem_range, hreq]
  exact hbuf.bytes k (by simpa using hk)

/-- The step in which the host issues one PRODUCE. -/
theorem Follows.step_answers {src : Source} {s : State} {o : List Byte} (h : Follows src s o) (r : Request) :
    ∃ t, step (s.issue (.produce r)) = .next t ∧ Answers src r s t o := by
  rw [step_produce (issue_cmds _ s) h.live_eq h.busy_eq]
  obtain ⟨t, hnext, ht⟩ := (h.hostSide s.req s.resp s.fillResp s.buf []).produce_answers r
  exact ⟨t, hnext, ht.of_buf_eq rfl⟩

theorem serve_cons_of_ok {r : Request} {s t : State} {n : Nat} (rs : List Request)
    (hstep : step (s.issue (.produce r)) = .next t) (hresp : t.resp = some (.ok n)) :
    serve (r :: rs) s =
      { out := delivered t ++ (serve rs t).out, ended := (serve rs t).ended, final := (serve rs t).final } := by
  simp only [serve, hstep, hresp]

theorem serve_cons_of_error {r : Request} {s t : State} {e : ErrorKind} (rs : List Request)
    (hstep : step (s.issue (.produce r)) = .next t) (hresp : t.resp = some (.error e)) :
    serve (r :: rs) s = { out := [], ended := .failed e, final := t } := by
  simp only [serve, hstep, hresp]

theorem serve_cons_of_none {r : Request} {s t : State} (rs : List Request)
    (hstep : step (s.issue (.produce r)) = .next t) (hresp : t.resp = none) :
    serve (r :: rs) s = { out := [], ended := .hung, final := t } := by
  simp only [serve, hstep, hresp]

/-- How the host's calls end, `o` being all that has been produced (R153): all answered OK, the block following the
reference decoding; or with the decoding's error; or in the wait at which it hangs. -/
inductive ServedEnd (src : Source) (o : List Byte) (x : ServeRecord) : Prop
  | running (hended : x.ended = .running) (hfollows : Follows src x.final o)
  | failed (e : ErrorKind) (hended : x.ended = .failed e) (hend : (decodeRef src).ended = .error e)
      (hfailed : x.final.failed)
  | hung (hended : x.ended = .hung) (hend : (decodeRef src).ended = .hang) (hwaits : x.final.waiting)

/-- Whatever the host asks, its calls deliver what comes next in the reference decoding and end as it does (R153). -/
theorem Follows.serve_ends {src : Source} {s : State} {o : List Byte} (h : Follows src s o) (rs : List Request) :
    ∃ out, (serve rs s).out = out.map some ∧ o ++ out <+: (decodeRef src).out ∧
      ServedEnd src (o ++ out) (serve rs s) := by
  have hnone : o ++ [] <+: (decodeRef src).out := by rw [List.append_nil]; exact h.out_prefix
  induction rs generalizing s o with
  | nil => exact ⟨[], rfl, hnone, .running rfl (by rw [List.append_nil]; exact h)⟩
  | cons r rs ih =>
    obtain ⟨t, hstep, ⟨out, hresp, hreq, hbuf, -, -, hfollows⟩ | ⟨e, hresp, hend, hfailed⟩ | ⟨hresp, hend, hwaits⟩⟩ :=
      h.step_answers r
    · rw [serve_cons_of_ok rs hstep hresp, delivered_of_written hresp hreq hbuf]
      obtain ⟨out', hout', hprefix, hserved⟩ := ih hfollows (by rw [List.append_nil]; exact hfollows.out_prefix)
      rw [List.append_assoc] at hprefix hserved
      refine ⟨out ++ out', by rw [hout', List.map_append], hprefix, ?_⟩
      obtain ⟨hended, hlast⟩ | ⟨e, hended, hend, hfailed⟩ | ⟨hended, hend, hwaits⟩ := hserved
      · exact .running hended hlast
      · exact .failed e hended hend hfailed
      · exact .hung hended hend hwaits
    · rw [serve_cons_of_error rs hstep hresp]
      exact ⟨[], rfl, hnone, .failed e rfl hend hfailed⟩
    · rw [serve_cons_of_none rs hstep hresp]
      exact ⟨[], rfl, hnone, .hung rfl hend hwaits⟩

/-- Calls that have all answered OK deliver what the window then holds the newest of. -/
theorem Follows.serve_running {src : Source} {s : State} {o : List Byte} (h : Follows src s o) {rs : List Request}
    (hrun : (serve rs s).ended = .running) :
    ∃ out, (serve rs s).out = out.map some ∧ Follows src (serve rs s).final (o ++ out) := by
  obtain ⟨out, hout, -, ⟨-, hfollows⟩ | ⟨e, hended, -⟩ | ⟨hended, -⟩⟩ := h.serve_ends rs
  · exact ⟨out, hout, hfollows⟩
  · simp [hended] at hrun
  · simp [hended] at hrun

/-- Once in EOF, the host's calls stay there (R142). -/
theorem Follows.serve_of_eof {src : Source} {s : State} {o : List Byte} (h : Follows src s o) (hfsm : s.fsm = .eof)
    (rs : List Request) : (serve rs s).final.fsm = .eof := by
  induction rs generalizing s with
  | nil => exact hfsm
  | cons r rs ih =>
    have hstep : step (s.issue (.produce r)) = .next { s with req := r, resp := some (.ok 0), cmds := [] } :=
      (step_produce (issue_cmds _ s) h.live_eq h.busy_eq).trans (produce_of_eof r hfsm)
    rw [serve_cons_of_ok rs hstep rfl]
    exact ih (h.hostSide r (some (.ok 0)) s.fillResp s.buf []) hfsm

/-- As long as EOF is not reached, every nonempty call that answers OK delivers a byte (R149). -/
theorem Follows.serve_progress {src : Source} {s : State} {o : List Byte} (h : Follows src s o) {rs : List Request}
    (hrs : ∀ r ∈ rs, 1 ≤ r.len) (hrun : (serve rs s).ended = .running) :
    (serve rs s).final.fsm = .eof ∨ rs.length ≤ (serve rs s).out.length := by
  induction rs generalizing s o with
  | nil => exact .inr le_rfl
  | cons r rs ih =>
    obtain ⟨t, hstep, ⟨out, hresp, hreq, hbuf, -, heof, hfollows⟩ | ⟨e, hresp, -⟩ | ⟨hresp, -⟩⟩ := h.step_answers r
    · have heof := heof (hrs r List.mem_cons_self)
      rw [serve_cons_of_ok rs hstep hresp] at hrun ⊢
      by_cases hfsm : t.fsm = .eof
      · exact .inl (hfollows.serve_of_eof hfsm rs)
      · obtain hlast | hlong := ih hfollows (fun r' hr' => hrs r' (List.mem_cons_of_mem r hr')) hrun
        · exact .inl hlast
        · have hpos : 1 ≤ out.length := List.length_pos_iff.mpr (mt heof.mp hfsm)
          rw [delivered_of_written hresp hreq hbuf, List.length_append, List.length_map, List.length_cons]
          exact .inr (by omega)
    · simp [serve_cons_of_error rs hstep hresp] at hrun
    · simp [serve_cons_of_none rs hstep hresp] at hrun

/-- In EOF the whole of the reference decoding has been produced. -/
theorem Follows.of_eof {src : Source} {s : State} {o : List Byte} (h : Follows src s o) (hfsm : s.fsm = .eof) :
    decodeRef src = { ended := .eof, out := o } := by
  obtain ⟨_, hf, -⟩ | ⟨_, hf, -⟩ | ⟨-, href⟩ := h.place
  · simp [hfsm] at hf
  · simp [hfsm] at hf
  · exact href

end Sys2Proof.Machine

namespace Sys2Proof

open Machine

/-- Settles O53: the calls from CREATE on follow the reference decoding from its start. -/
theorem everySplitDeliversAPrefixOfTheDecoding : Obligations.EverySplitDeliversAPrefixOfTheDecoding := by
  intro s src rs
  obtain ⟨out, hout, hprefix, -⟩ := (follows_create src s).serve_ends rs
  rw [hout]
  exact hprefix.map some

/-- Settles O54: of the three ways the calls end, each clause speaks of one. -/
theorem everySplitEndsAsTheDecoding : Obligations.EverySplitEndsAsTheDecoding := by
  intro s src rs
  obtain ⟨out, -, -, ⟨hended, -⟩ | ⟨e, hended, hend, hfailed⟩ | ⟨hended, hend, hwaits⟩⟩ :=
    (follows_create src s).serve_ends rs <;> rw [hended]
  · exact ⟨nofun, nofun, nofun⟩
  · refine ⟨fun e' he => ?_, nofun, nofun⟩
    cases he
    exact ⟨hend, hfailed⟩
  · exact ⟨nofun, fun _ => ⟨hend, hwaits⟩, nofun⟩

/-- Settles O55: in EOF a block that follows the reference decoding has produced all of it. -/
theorem completedRunDeliversTheWholeDecoding : Obligations.CompletedRunDeliversTheWholeDecoding := by
  intro s src rs hrun ⟨_, heof⟩
  obtain ⟨out, hout, hfollows⟩ := (follows_create src s).serve_running hrun
  have href : decodeRef src = { ended := .eof, out := out } := hfollows.of_eof heof
  rw [href, hout]
  exact ⟨rfl, rfl⟩

/-- Settles O56: before EOF each nonempty call delivers a byte, and no more are delivered than the decoding has. -/
theorem nonemptyRequestsReachTheEnd : Obligations.NonemptyRequestsReachTheEnd := by
  intro s src rs hrs hlen hrun
  obtain ⟨out, hout, hfollows⟩ := (follows_create src s).serve_running hrun
  have hle : out.length ≤ (decodeRef src).out.length := hfollows.out_prefix.length_le
  obtain heof | hlong := (follows_create src s).serve_progress hrs hrun
  · exact ⟨hfollows.live_eq, heof⟩
  · rw [hout, List.length_map] at hlong
    omega

/-- Settles O57: what the window holds is part of following the reference decoding. -/
theorem windowHoldsTheNewestDeliveredBytes : Obligations.WindowHoldsTheNewestDeliveredBytes := by
  intro s src rs d hrun
  obtain ⟨out, hout, hfollows⟩ := (follows_create src s).serve_running hrun
  have hnewest : HoldsNewest (serve rs (create src s)).final out := hfollows.newest
  rw [hout, hnewest.outCount_eq]
  refine ⟨(List.length_map some).symm, fun hheld => ?_⟩
  have hd := (hnewest.lt_hist_iff d).mp hheld
  rw [hnewest.winGet_eq, List.getElem?_reverse hd, List.getElem?_map, List.getElem?_eq_getElem (by omega)]
  rfl

end Sys2Proof

/-! What a chunk of the reference decoding adds to the output, and FILL from CREATE against the whole decoding
(43_fill_wrapper.md). -/

namespace Sys2Proof.Machine

/-- A run of the reference decoding takes nothing from the stream: it adds its size to the output, or ends the decoding. -/
theorem refRun_cases (off n : Nat) (bs o : List Byte) :
    (∃ o', refRun off n bs o = .more bs o' ∧ o'.length = o.length + n) ∨
    (∃ o', refRun off n bs o = .stop { ended := .error .invalidOffset, out := o' }) := by
  induction n generalizing o with
  | zero => exact .inl ⟨o, rfl, rfl⟩
  | succ n ih =>
    rw [refRun]
    split
    · obtain ⟨o', hmore, hlen⟩ | hstop := ih (o ++ [o.getD (o.length - 1 - off) 0#8])
      · exact .inl ⟨o', hmore, by rw [hlen, List.length_append, List.length_singleton, Nat.add_right_comm, Nat.add_assoc]⟩
      · exact .inr hstop
    · exact .inr ⟨o, rfl⟩

/-- A payload that is there is output whole. -/
theorem refPlain_whole (term : Terminator) {n : Nat} {bs : List Byte} (h : n ≤ bs.length) (o : List Byte) :
    refPlain term n bs o = .more (bs.drop n) (o ++ bs.take n) := by
  rw [← Nat.add_zero n, refPlain_add term 0 h, refPlain, Nat.add_zero]

/-- Inside a chunk no terminator is a clean end (R181, R183). -/
theorem refEndInside_ne_eof (term : Terminator) : refEndInside term ≠ .eof := by
  cases term <;> exact nofun

/-- A decoding that ends cleanly outputs every byte the active chunk owes. -/
theorem length_add_owed_le {s : State} {o : List Byte} {term : Terminator} {fuel : Nat}
    (h : ((s.refOwed o).resume term fuel).ended = .eof) :
    o.length + s.csize.toNat ≤ ((s.refOwed o).resume term fuel).out.length := by
  by_cases hc : s.ctype = .plain
  · rw [State.refOwed_of_plain hc] at h ⊢
    rcases Nat.lt_or_ge s.remaining.length s.csize.toNat with hshort | hthere
    · rw [refPlain_short _ hshort] at h
      exact absurd h (refEndInside_ne_eof _)
    · rw [refPlain_whole _ hthere, RefStep.resume_more]
      refine le_trans ?_ (refLoop_prefix _ _ _ _).length_le
      rw [List.length_append, List.length_take_of_le hthere]
  · rw [State.refOwed_of_run hc] at h ⊢
    obtain ⟨o', hmore, hlen⟩ | ⟨o', hstop⟩ := refRun_cases s.coff.toNat s.csize.toNat s.remaining o
    · rw [hmore, RefStep.resume_more, ← hlen]
      exact (refLoop_prefix _ _ _ _).length_le
    · rw [hstop] at h
      cases h

/-- A block inside a chunk has not produced the whole of a decoding that ends cleanly. -/
theorem Follows.lt_of_active {src : Source} {s : State} {o : List Byte} (h : Follows src s o) (hfsm : s.fsm = .active)
    (hclean : (decodeRef src).ended = .eof) : o.length < (decodeRef src).out.length := by
  obtain ⟨_, hf, -⟩ | ⟨fuel, -, howed, -, href⟩ | ⟨hf, -⟩ := h.place
  · simp [hfsm] at hf
  · rw [href] at hclean ⊢
    have hle := length_add_owed_le hclean
    omega
  · simp [hfsm] at hf

/-- A turn of FILL with room left, its PRODUCE ended (R171). -/
theorem fillTurn_of_room {s u : State} {r : Request} {filled : Nat} (hroom : filled < r.len)
    (h : produce { len := r.len - filled, base := r.base + filled } { s with fillResp := none } = .next u) :
    fillTurn r filled s = .next (fillAfter r filled u) := by
  rw [fillTurn, if_pos hroom, h]

/-- A step that takes a FILL, of a live block that does not wait, is one turn of it (R63, R198). -/
theorem step_fill {s : State} {r : Request} {filled : Nat} {cs : List Command} (hcmds : s.cmds = .fill r filled :: cs)
    (hlive : s.live = true) (hbusy : s.busy = false) : step s = fillTurn r filled { s with cmds := cs } := by
  simp only [step, hcmds, runCommand, hlive, hbusy, Bool.not_true, Bool.false_eq_true, if_false]

theorem fillAfter_of_zero {r : Request} {filled : Nat} {u : State} (h : u.resp = some (.ok 0)) :
    fillAfter r filled u =
      { u with fillResp := some (.error .bufferTooSmall), buf := u.buf.forget (r.base + filled) (r.len - filled) } := by
  simp only [fillAfter, h]

theorem fillAfter_of_count {r : Request} {filled n : Nat} {u : State} (h : u.resp = some (.ok n)) (hn : 1 ≤ n) :
    fillAfter r filled u = { u with cmds := .fill r (filled + n) :: u.cmds } := by
  obtain ⟨m, rfl⟩ := Nat.exists_eq_add_of_le' hn
  simp only [fillAfter, h]

/-- FILL's buffer holds the bytes `o` from its start on. -/
def BufHolds (r : Request) (s : State) (o : List Byte) : Prop :=
  ∀ j (h : j < o.length), s.buf.read (r.base + j) = some o[j]

/-- One more PRODUCE, into the rest of the buffer, leaves the bytes before it and adds its own (R171). -/
theorem BufHolds.append {r : Request} {s t : State} {o out : List Byte} {len : Nat} (h : BufHolds r s o)
    (hbuf : Written (beginProduce { len := len, base := r.base + o.length } s) t out) : BufHolds r t (o ++ out) := by
  intro j hj
  rcases Nat.lt_or_ge j o.length with hold | hnew
  · rw [hbuf.untouched _ (.inl (by simpa using hold)), List.getElem_append_left hold]
    exact h j hold
  · rw [List.length_append] at hj
    have hread : t.buf.read (r.base + o.length + (j - o.length)) = some _ := hbuf.bytes (j - o.length) (by omega)
    rw [List.getElem_append_right hnew, ← hread]
    congr 1
    omega

/-- FILL is at work and has `o` in its buffer: it stands at the head of the queue with its progress (R171). -/
structure Filling (src : Source) (r : Request) (s : State) (o : List Byte) : Prop where
  cmds_eq : s.cmds = [.fill r o.length]
  fits : o.length ≤ r.len
  follows : Follows src s o
  not_eof : s.fsm ≠ .eof
  filled : BufHolds r s o

/-- How a FILL from a source that decodes cleanly ends: OK, its buffer full, before EOF; or BUFFER_TOO_SMALL in EOF, with the
whole decoding in its buffer (R171, R172). -/
inductive FillEnds (src : Source) (r : Request) (t : State) (o : List Byte) : Prop
  | full (hresp : t.fillResp = some .ok) (hlen : o.length = r.len) (hfollows : Follows src t o) (hfsm : t.fsm ≠ .eof)
      (hbuf : BufHolds r t o)
  | tooSmall (hresp : t.fillResp = some (.error .bufferTooSmall)) (hlen : o.length < r.len)
      (href : decodeRef src = { ended := .eof, out := o }) (hfsm : t.fsm = .eof) (hbuf : BufHolds r t o)

/-- One step of a FILL at work on a source that decodes cleanly: it ends, or goes on with more bytes in its buffer. -/
theorem Filling.step_cases {src : Source} {r : Request} {s : State} {o : List Byte} (h : Filling src r s o)
    (hclean : (decodeRef src).ended = .eof) :
    ∃ t, step s = .next t ∧
      ((t.cmds = [] ∧ FillEnds src r t o) ∨ ∃ out, 1 ≤ out.length ∧ Filling src r t (o ++ out)) := by
  rw [step_fill h.cmds_eq h.follows.live_eq h.follows.busy_eq]
  by_cases hroom : o.length < r.len
  · obtain ⟨u, hnext, hanswers⟩ := (h.follows.hostSide s.req s.resp none s.buf []).produce_answers
      { len := r.len - o.length, base := r.base + o.length }
    refine ⟨_, fillTurn_of_room hroom hnext, ?_⟩
    have hcmds : u.cmds = [] := (produce_endsAsCore hnext).interface.cmds_eq
    obtain ⟨out, hresp, -, hbuf, hlen, heof, hfollows⟩ | ⟨e, -, hend, -⟩ | ⟨-, hend, -⟩ := hanswers
    · have heof := heof (Nat.sub_pos_of_lt hroom)
      have hbuf : BufHolds r u (o ++ out) := h.filled.append ⟨hbuf.bytes, hbuf.untouched⟩
      rcases Nat.eq_zero_or_pos out.length with hzero | hpos
      · obtain rfl := List.eq_nil_of_length_eq_zero hzero
        have hfsm : u.fsm = .eof := heof.mp rfl
        rw [List.append_nil] at hbuf hfollows
        rw [fillAfter_of_zero hresp]
        refine .inl ⟨hcmds, .tooSmall rfl hroom (hfollows.of_eof hfsm) hfsm fun j hj => ?_⟩
        rw [Memory.read_forget, if_neg (by omega)]
        exact hbuf j hj
      · rw [fillAfter_of_count hresp hpos]
        refine .inr ⟨out, hpos, ⟨by simp [hcmds], ?_, ?_, fun hfsm => ?_, hbuf⟩⟩
        · rw [List.length_append]
          exact Nat.add_le_of_le_sub' h.fits hlen
        · exact hfollows.hostSide u.req u.resp u.fillResp u.buf _
        · simp [heof.mpr hfsm] at hpos
    · simp [hclean] at hend
    · simp [hclean] at hend
  · refine ⟨_, fillTurn_of_full hroom, .inl ⟨rfl, .full rfl (le_antisymm h.fits (Nat.not_lt.mp hroom)) ?_ h.not_eof h.filled⟩⟩
    exact h.follows.hostSide s.req s.resp (some .ok) s.buf []

theorem run_succ_of_step {s t : State} (k : Nat) (h : step s = .next t) :
    Host.Core.run Sys2Proof.core (k + 1) s = Host.Core.run Sys2Proof.core k t := by
  have hcore : Sys2Proof.core.step s = .next t := h
  simp only [Host.Core.run, hcore]

/-- Every turn of a FILL fills at least one byte or is its last, so it ends (R171). -/
theorem Filling.run_ends {src : Source} {r : Request} {s : State} {o : List Byte} (h : Filling src r s o)
    (hclean : (decodeRef src).ended = .eof) :
    ∃ (k : Nat) (t : State) (o' : List Byte), Host.Core.run Sys2Proof.core k s = .next t ∧ t.cmds = [] ∧
      FillEnds src r t o' := by
  induction hroom : r.len - o.length using Nat.strong_induction_on generalizing s o with
  | _ room ih =>
    obtain ⟨t, hstep, ⟨hcmds, hends⟩ | ⟨out, hpos, hfilling⟩⟩ := h.step_cases hclean
    · exact ⟨1, t, o, run_succ_of_step 0 hstep, hcmds, hends⟩
    · have hlen := hfilling.fits
      rw [List.length_append] at hlen
      obtain ⟨k, t', o', hrun, hlast⟩ := ih (r.len - (o ++ out).length) (by rw [List.length_append]; omega) hfilling rfl
      exact ⟨k + 1, t', o', (run_succ_of_step k hstep).trans hrun, hlast⟩

theorem filling_create (src : Source) (r : Request) (s : State) :
    Filling src r { create src s with cmds := [.fill r 0] } [] where
  cmds_eq := rfl
  fits := Nat.zero_le _
  follows := (follows_create src s).hostSide s.req none s.fillResp s.buf _
  not_eof := nofun
  filled := nofun

end Sys2Proof.Machine

namespace Sys2Proof

open Machine

/-- Settles O49: FILL from CREATE ends in one of two ways, and the length of the decoding says which. -/
theorem fillDeliversTheDecodedStream : Obligations.FillDeliversTheDecodedStream := by
  intro s src r hclean
  obtain ⟨k, t, o, hrun, hcmds, ⟨hresp, hlen, hfollows, hfsm, hbuf⟩ | ⟨hresp, hlen, href, hfsm, hbuf⟩⟩ :=
    (filling_create src r s).run_ends hclean
  · have hprefix : o <+: (decodeRef src).out := hfollows.out_prefix
    refine ⟨fun _ => ⟨k, t, hrun, hcmds, hresp, fun hall => ?noChunk, fun j hj hjr => ?bytes⟩, fun hshort => ?_⟩
    case noChunk =>
      obtain ⟨_, hf, -⟩ | ⟨_, hf, -⟩ | ⟨hf, -⟩ := hfollows.place
      · exact hf
      · have hlt := hfollows.lt_of_active hf hclean
        omega
      · exact absurd hf hfsm
    case bytes => rw [hbuf j (by omega), hprefix.getElem]
    · have hle := hprefix.length_le
      omega
  · rw [href]
    refine ⟨fun hfits => absurd hlen (Nat.not_lt.mpr hfits), fun _ => ⟨k, t, hrun, hcmds, hresp, hfsm, hbuf⟩⟩

end Sys2Proof

/-! The invariant of the machine (R37): it holds after reset and every step keeps it. -/

namespace Sys2Proof.Machine

/-- The two ways the source's terminator ends a call: with its error, or in the wait (R181, R183, R58). -/
theorem EndsInside.failed_or_waits {fsm : Fsm} {ctype : CType} {owed : Nat} {out : List Byte} {s t : State}
    (h : EndsInside fsm ctype owed out s t) :
    (∃ e, e ≠ .bufferTooSmall ∧ CallFailed e s t) ∨ CallWaits fsm ctype owed out s t := by
  unfold EndsInside at h
  split at h
  case h_1 | h_2 => exact .inl ⟨_, (by decide), h⟩
  case h_3 => exact .inr h

/-- What the window's registers and bytes have in common in a run (R37 (b), (c), R27, R29). -/
structure WindowInv (s : State) : Prop where
  hist_eq : s.hist.toNat = min s.outCount Config.windowSize
  wp_eq : s.wp.toNat = s.outCount % Config.windowSize
  win_written : ∀ i, (s.win.read i).isSome = true ↔ i < s.hist.toNat

theorem RunInv.window {s : State} (h : RunInv s) : WindowInv s := ⟨h.hist_eq, h.wp_eq, h.win_written⟩

theorem WindowInv.of_empty {s : State} (hwin : s.win = []) (hwp : s.wp = 0#16) (hhist : s.hist = 0#17)
    (hcount : s.outCount = 0) : WindowInv s :=
  ⟨by simp [hhist, hcount], by simp [hwp, hcount], fun i => by simp [hwin, hhist]⟩

/-- Bytes pushed keep it: each fills the next free slot, or, once the window is full, overwrites the oldest (R54). -/
theorem WindowInv.pushed {s t : State} {out : List Byte} (h : WindowInv s) (hp : Pushed s t out) : WindowInv t := by
  obtain ⟨hhist, hwp, hwritten⟩ := h
  have hhist' := hp.hist_eq
  have hwp' := hp.wp_eq
  have hcount := hp.outCount_eq
  have hread := hp.written
  have hkept := hp.untouched
  simp only [Config.windowSize] at *
  refine ⟨by simp only [Config.windowSize]; split at hhist' <;> omega, by simp only [Config.windowSize]; omega, fun i => ?_⟩
  by_cases hnew : ∃ k < out.length, i = (s.wp.toNat + k) % 65536
  · obtain ⟨k, hk, rfl⟩ := hnew
    rw [hread k hk, Option.isSome_some]
    refine iff_of_true rfl ?_
    split at hhist' <;> omega
  · have hold : ∀ k < out.length, i ≠ (s.wp.toNat + k) % 65536 := fun k hk he => hnew ⟨k, hk, he⟩
    rw [hkept i hold, hwritten i]
    refine ⟨fun hi => by split at hhist' <;> omega, fun hi => ?_⟩
    by_contra hout
    refine hold (i - s.hist.toNat) ?_ ?_ <;> split at hhist' <;> omega

/-- The host's side is no part of a run. -/
theorem RunInv.hostSide {s : State} (h : RunInv s) (req : Request) (resp : Option Response)
    (fillResp : Option FillResponse) (buf : Memory) (cmds : List Command) :
    RunInv { s with req := req, resp := resp, fillResp := fillResp, buf := buf, cmds := cmds } :=
  ⟨h.hist_eq, h.wp_eq, h.win_written, h.active_size, h.active_offset, h.eof_ended, h.cursor_le⟩

/-- A call that is done keeps a run's invariant (R145, R146). -/
theorem RunInv.of_callDone {s t : State} {out : List Byte} (h : RunInv s) (hfsm : s.fsm = .active)
    (hcall : CallDone s.csize.toNat s t out) (hctype : t.ctype = s.ctype) (hcoff : t.coff = s.coff)
    (hpos : t.inPos ≤ t.src.bytes.length) : RunInv t := by
  obtain ⟨hhist, hwp, hwritten⟩ := h.window.pushed hcall.window
  obtain ⟨-, hmax⟩ := h.active_size hfsm
  have hle : out.length ≤ s.csize.toNat := hcall.count ▸ Nat.min_le_left _ _
  have howes := hcall.owes
  have hfsm' := hcall.fsm_eq
  refine ⟨hhist, hwp, hwritten, fun hactive => ?_, fun _ hrun => ?_, fun heof => ?_, hpos⟩
  · have howed : out.length ≠ s.csize.toNat := fun he => by simp [hfsm', he] at hactive
    rw [hctype]
    omega
  · rw [hcoff]
    exact h.active_offset hfsm (hctype ▸ hrun)
  · rw [heof] at hfsm'
    split at hfsm' <;> cases hfsm'

/-- A wait keeps a run's invariant: the cursor stands past the last byte, the chunk still owes what it owed (R200). -/
theorem RunInv.of_callWaits {s t : State} {fsm : Fsm} {out : List Byte} (h : RunInv s) (hfsm : s.fsm = fsm)
    (heof : fsm ≠ .eof) (hwait : CallWaits fsm s.ctype s.csize.toNat out s t) : RunInv t := by
  have hpos : t.inPos = t.src.bytes.length := by
    have hcursor := h.cursor_le
    rw [hwait.cursor, State.length_remaining, hwait.interface.src_eq]
    omega
  exact
    { hist_eq := by rw [hwait.hist_eq, hwait.outCount_eq]; exact h.hist_eq
      wp_eq := by rw [hwait.wp_eq, hwait.outCount_eq]; exact h.wp_eq
      win_written := by rw [hwait.win_eq, hwait.hist_eq]; exact h.win_written
      active_size := fun ha => by
        rw [hwait.owes, hwait.ctype_eq]
        exact h.active_size (hfsm.trans (hwait.fsm_eq.symm.trans ha))
      active_offset := fun ha hrun => by
        rw [hwait.coff_eq]
        exact h.active_offset (hfsm.trans (hwait.fsm_eq.symm.trans ha)) (hwait.ctype_eq.symm.trans hrun)
      eof_ended := fun he => absurd (hwait.fsm_eq.symm.trans he) heof
      cursor_le := hpos.le }

/-- A call with an active chunk keeps a run's invariant, unless it fails. -/
theorem RunInv.continueChunk {s t : State} (h : RunInv s) (hfsm : s.fsm = .active)
    (hnext : continueChunk s = .next t) (hok : t.fsm ≠ .poisoned) : RunInv t := by
  obtain ⟨u, hu, hends⟩ := continueChunk_cases hfsm
  obtain rfl : u = t := by simpa [hu] using hnext
  have hcursor := h.cursor_le
  obtain ⟨out, hcall, hctype, hcoff, hcases⟩ | ⟨-, -, hinside⟩ | ⟨-, -, -, hfail⟩ := hends
  · refine h.of_callDone hfsm hcall hctype hcoff ?_
    rw [hcall.interface.src_eq]
    obtain ⟨-, -, hthere, hpos⟩ | ⟨-, -, hpos, -⟩ := hcases
    · rw [State.length_remaining] at hthere
      omega
    · omega
  · obtain ⟨e, -, hfail⟩ | hwait := hinside.failed_or_waits
    · exact absurd hfail.fsm_eq hok
    · exact h.of_callWaits hfsm nofun hwait
  · exact absurd hfail.fsm_eq hok

/-- Adopting the instruction just parsed keeps a run's invariant (R24, R25, R144). -/
theorem RunInv.adopted {s : State} {i : Instr} {rest : List Byte} (h : RunInv s) (hdec : decode s.remaining = .ok i rest) :
    RunInv (adopted i { s with inPos := s.inPos + i.headerLength }) := by
  obtain ⟨hmin, hmax, hoff⟩ := decode_ranges hdec
  have hheader := decode_length hdec
  have hcursor := h.cursor_le
  rw [State.length_remaining] at hheader
  have hpos : s.inPos + i.headerLength ≤ s.src.bytes.length := by omega
  obtain ⟨hhist, hwp, hwritten⟩ := h.window
  refine ⟨?_, ?_, ?_, fun _ => ?_, fun _ hrun => ?_, fun heof => ?_, ?_⟩
  · cases i <;> exact hhist
  · cases i <;> exact hwp
  · cases i <;> exact hwritten
  · rw [adopted_csize_toNat_of_decode hdec, adopted_ctype]
    exact ⟨hmin, hmax⟩
  · rw [adopted_ctype] at hrun
    cases i with
    | run2 size off => rw [adopted_coff_toNat (decode_wellFormed hdec) (.inl rfl)]; exact hoff size off rfl
    | run3 size off | lit size => cases hrun
  · rw [adopted_fsm] at heof
    cases heof
  · rw [adopted_inPos, adopted_src]
    exact hpos

/-- Every PRODUCE that does not fail keeps a run's invariant. -/
theorem RunInv.produce {s t : State} {r : Request} (h : RunInv s) (hnext : produce r s = .next t)
    (hok : t.fsm ≠ .poisoned) : RunInv t := by
  have hbegin : RunInv (beginProduce r s) := h.hostSide r none s.fillResp s.buf s.cmds
  obtain ⟨hfsm, -⟩ | ⟨hfsm, -⟩ | ⟨hfsm, he⟩ | ⟨hfsm, hnil, hterm, he⟩ | ⟨hfsm, hcut, hends⟩ | ⟨hfsm, i, rest, hdec, he⟩ :=
    produce_cases r s
  · rw [produce_of_eof r hfsm] at hnext
    cases hnext
    exact h.hostSide r (some (.ok 0)) s.fillResp s.buf s.cmds
  · simp [produce_of_poisoned r hfsm] at hnext
  · rw [he] at hnext
    exact hbegin.continueChunk hfsm hnext hok
  · rw [he] at hnext
    cases hnext
    have hend : s.src.bytes.length ≤ s.inPos := List.drop_eq_nil_iff.mp hnil
    exact ⟨h.hist_eq, h.wp_eq, h.win_written, nofun, nofun, fun _ => ⟨hterm, hend⟩, h.cursor_le⟩
  · obtain ⟨e, -, he⟩ | ⟨-, he⟩ := hends <;> rw [he] at hnext <;> cases hnext
    · exact absurd rfl hok
    · refine hbegin.of_callWaits (out := []) hfsm nofun ?_
      exact ⟨hfsm, rfl, rfl, rfl, rfl, rfl, rfl, rfl, rfl, .of_buf_eq rfl, ⟨rfl, rfl, rfl, rfl, rfl⟩, rfl, rfl, rfl⟩
  · rw [he] at hnext
    exact (hbegin.adopted hdec).continueChunk (adopted_fsm i _) hnext hok

/-- Right after CREATE a run begins. -/
theorem runInv_create (src : Source) (s : State) : RunInv (create src s) := by
  obtain ⟨hhist, hwp, hwritten⟩ : WindowInv (create src s) := .of_empty rfl rfl rfl rfl
  exact ⟨hhist, hwp, hwritten, nofun, nofun, nofun, Nat.zero_le _⟩

/-- What FILL makes of its PRODUCE changes the host's side only (R171). -/
theorem fillAfter_frame (r : Request) (filled : Nat) (t : State) : ∃ fillResp buf cmds,
    fillAfter r filled t = { t with fillResp := fillResp, buf := buf, cmds := cmds } ∧
      (buf = t.buf ∨ ∃ base n, buf = t.buf.forget base n) := by
  unfold fillAfter
  split
  case h_1 => exact ⟨_, _, _, rfl, .inr ⟨_, _, rfl⟩⟩
  case h_2 => exact ⟨_, _, _, rfl, .inr ⟨_, _, rfl⟩⟩
  case h_3 => exact ⟨_, _, _, rfl, .inl rfl⟩
  case h_4 => exact ⟨_, _, _, rfl, .inl rfl⟩

theorem Inv.canonical {s : State} (h : Inv s) : Canonical s := ⟨h.win_wf, h.buf_wf, h.win_bound⟩

/-- The host's side is no part of the invariant, save that its memory is canonical. -/
theorem Inv.hostSide {s : State} (h : Inv s) (req : Request) (resp : Option Response) (fillResp : Option FillResponse)
    {buf : Memory} (cmds : List Command) (hbuf : buf.wf) :
    Inv { s with req := req, resp := resp, fillResp := fillResp, buf := buf, cmds := cmds } :=
  ⟨h.win_wf, hbuf, h.win_bound, fun hlive hfsm => (h.run hlive hfsm).hostSide req resp fillResp buf cmds⟩

/-- Every PRODUCE of a live block keeps the invariant. -/
theorem Inv.produce {s t : State} {r : Request} (h : Inv s) (hlive : s.live = true) (hnext : produce r s = .next t) :
    Inv t := by
  obtain ⟨hwin, hbuf, hbound⟩ := h.canonical.produce hnext
  refine ⟨hwin, hbuf, hbound, fun _ hok => ?_⟩
  have hfsm : s.fsm ≠ .poisoned := fun hp => by simp [produce_of_poisoned r hp] at hnext
  exact (h.run hlive hfsm).produce hnext hok

/-- Every turn of FILL keeps the invariant. -/
theorem Inv.fillTurn {s t : State} {r : Request} {filled : Nat} (h : Inv s) (hlive : s.live = true)
    (hnext : fillTurn r filled s = .next t) : Inv t := by
  by_cases hroom : filled < r.len
  · obtain ⟨u, hu, rfl⟩ := fillTurn_cases hroom hnext
    have hinv : Inv u := (h.hostSide s.req s.resp none s.cmds h.buf_wf).produce hlive hu
    obtain ⟨fillResp, buf, cmds, he, hbuf⟩ := fillAfter_frame r filled u
    rw [he]
    refine hinv.hostSide u.req u.resp fillResp cmds ?_
    obtain rfl | ⟨base, n, rfl⟩ := hbuf
    · exact hinv.buf_wf
    · exact Memory.wf_forget base n hinv.buf_wf
  · rw [fillTurn_of_full hroom] at hnext
    cases hnext
    exact h.hostSide s.req s.resp (some .ok) s.cmds h.buf_wf

/-- Every host command keeps the invariant: CREATE begins a run, DROP ends it, the others go on with it. -/
theorem Inv.runCommand {s t : State} {c : Command} (h : Inv s) (hnext : runCommand c s = .next t) : Inv t := by
  obtain ⟨src, -, -, rfl⟩ | ⟨r, -, hlive, -, hproduce⟩ | ⟨-, -, rfl⟩ | ⟨r, filled, -, hlive, -, hfill⟩ :=
    runCommand_cases hnext
  · exact ⟨List.Pairwise.nil, h.buf_wf, by simp, fun _ _ => runInv_create src s⟩
  · exact h.produce hlive hproduce
  · exact ⟨List.Pairwise.nil, h.buf_wf, by simp, fun hlive => by simp at hlive⟩
  · exact h.fillTurn hlive hfill

end Sys2Proof.Machine

namespace Sys2Proof

open Machine

/-- Settles O51: an idle step changes nothing, and every host command keeps the invariant. -/
theorem everyStepKeepsTheInvariant : Obligations.EveryStepKeepsTheInvariant := by
  intro s t hinv hstep
  obtain ⟨-, rfl⟩ | ⟨c, cs, -, hrun⟩ := step_cases hstep
  · exact hinv
  · exact (hinv.hostSide s.req s.resp s.fillResp cs hinv.buf_wf).runCommand hrun

/-- Settles O52: the window is empty and the cursor at the start of an empty source. -/
theorem resetMeetsTheInvariant : Obligations.ResetMeetsTheInvariant := by
  obtain ⟨hhist, hwp, hwritten⟩ : WindowInv State.reset := .of_empty rfl rfl rfl rfl
  exact ⟨List.Pairwise.nil, List.Pairwise.nil, nofun, fun _ _ => ⟨hhist, hwp, hwritten, nofun, nofun, nofun, Nat.zero_le _⟩⟩

end Sys2Proof

/-! The window as a whole and the source, 20_memory.md: extending by a block, eviction, the capacity, the order of the pulls. -/

namespace Sys2Proof.Machine

/-- The old history lies behind a block, moved back by its length, as far as a distance reaches (R55). -/
theorem winGet_winExtend_of_le {vs : List Byte} {s : State} {d : BitVec 16} (h : vs.length ≤ d.toNat) :
    winGet d (winExtend vs s) = winGet (BitVec.ofNat 16 (d.toNat - vs.length)) s := by
  induction vs generalizing s with
  | nil => simp [winExtend]
  | cons v vs ih =>
    rw [List.length_cons] at h ⊢
    have hd := d.isLt
    have hold : (BitVec.ofNat 16 (d.toNat - (vs.length + 1))).toNat = d.toNat - (vs.length + 1) := by
      rw [BitVec.toNat_ofNat, Nat.mod_eq_of_lt (by omega)]
    have hnext : BitVec.ofNat 16 (d.toNat - vs.length) = BitVec.ofNat 16 (d.toNat - (vs.length + 1)) + 1#16 := by
      rw [← BitVec.ofNat_add, show d.toNat - (vs.length + 1) + 1 = d.toNat - vs.length by omega]
    rw [winExtend, ih (by omega), hnext, winGet_push_succ v s _ (by omega)]

/-- The last byte of a block is nearest (R55). -/
theorem winGet_winExtend_of_lt {vs : List Byte} {s : State} {d : BitVec 16} (h : d.toNat < vs.length) :
    winGet d (winExtend vs s) = some (vs[vs.length - 1 - d.toNat]'(by omega)) := by
  induction vs generalizing s with
  | nil => simp at h
  | cons v vs ih =>
    rcases Nat.lt_or_ge d.toNat vs.length with hlater | hfirst
    · rw [winExtend, ih hlater]
      simp only [List.length_cons, show vs.length + 1 - 1 - d.toNat = vs.length - 1 - d.toNat + 1 by omega,
        List.getElem_cons_succ]
    · have hd : d.toNat = vs.length := by rw [List.length_cons] at h; omega
      rw [winExtend, winGet_winExtend_of_le hfirst]
      simp only [hd, List.length_cons, Nat.add_sub_cancel, Nat.sub_self, List.getElem_cons_zero]
      exact winGet_push_zero v s

/-- In a run the slot of every distance held has been written (R27, R29, R37). -/
theorem WindowInv.slot_lt_hist {s : State} (h : WindowInv s) {d : Nat} (hd : d < s.hist.toNat) :
    (s.wp.toNat + 65535 - d) % 65536 < s.hist.toNat := by
  obtain ⟨hhist, hwp, -⟩ := h
  simp only [Config.windowSize] at hhist hwp
  omega

/-- A canonical memory with no address from `n` on lists at most `n` bytes. -/
theorem Memory.length_le_of_bound {m : Memory} {n : Nat} (hwf : m.wf) (hbound : ∀ c ∈ m, c.1 < n) : m.length ≤ n := by
  have hnodup : (m.map Prod.fst).Nodup := List.pairwise_map.mpr (hwf.imp Nat.ne_of_lt)
  have hsubset : m.map Prod.fst ⊆ List.range n := by
    intro a ha
    obtain ⟨c, hc, rfl⟩ := List.mem_map.mp ha
    exact List.mem_range.mpr (hbound c hc)
  simpa using (hnodup.subperm hsubset).length_le

theorem srcRead_of_lt {s : State} (h : s.inPos < s.src.bytes.length) :
    srcRead s = (.byte s.src.bytes[s.inPos], { s with inPos := s.inPos + 1 }) := by
  simp only [srcRead, List.getElem?_eq_getElem h]

end Sys2Proof.Machine

namespace Sys2Proof

open Machine

/-- Settles O12: by induction on the block, the bytes after the first being the nearer ones. -/
theorem extendingTheWindowKeepsOutputOrder : Obligations.ExtendingTheWindowKeepsOutputOrder :=
  fun _ _ _ => ⟨winGet_winExtend_of_lt, winGet_winExtend_of_le⟩

/-- Settles O13: a distance below `out_count` is held, and its slot is one that a push has written. -/
theorem evictionDropsNoEncodableReference : Obligations.EvictionDropsNoEncodableReference := by
  intro d s hinv hlive hfsm hd
  have hrun : RunInv s := hinv.run hlive hfsm
  have hheld : d.toNat < s.hist.toNat := (hrun.lt_hist_iff d).mpr hd
  obtain ⟨v, hv⟩ := Option.isSome_iff_exists.mp ((hrun.win_written _).mpr (hrun.window.slot_lt_hist hheld))
  exact ⟨v, by rw [winGet_eq_ring_of_lt hheld, winByte, hv, Option.getD_some], hv⟩

/-- Settles O14: WIN is canonical and has no index beyond 65535. -/
theorem windowNeverExceedsItsCapacity : Obligations.WindowNeverExceedsItsCapacity :=
  fun _ hinv => Memory.length_le_of_bound hinv.win_wf hinv.win_bound

/-- Settles O15: a pull inside the source's bytes, and one with nothing left. -/
theorem pullsAnswerTheSourceInOrder : Obligations.PullsAnswerTheSourceInOrder :=
  fun _ => ⟨srcRead_of_lt, fun hend => srcRead_nil (List.drop_eq_nil_iff.mpr hend)⟩

end Sys2Proof

/-! The three chunk instructions of 41_chunk_instructions.md: everything an instruction can do, said once in terms of the state
before its adoption. -/

namespace Sys2Proof.Machine

/-- The size of a well-formed instruction fits the register `csize` (R24). -/
theorem adopted_csize_toNat {i : Instr} (h : i.wellFormed = true) (s : State) : (adopted i s).csize.toNat = i.size :=
  adopted_csize_toNat_of_decode (decode_encode h []) s

theorem produceCount_adopted {i : Instr} (h : i.wellFormed = true) (s : State) :
    produceCount (adopted i s) = min i.size s.req.len := by
  rw [produceCount, adopted_csize_toNat h, adopted_req]

/-- An error of the chunk just adopted is an error from the state before the adoption (R144). -/
theorem CallFailed.of_adopted {i : Instr} {e : ErrorKind} {s t : State} (h : CallFailed e (adopted i s) t) :
    CallFailed e s t := by
  obtain ⟨fsm_eq, resp_eq, untouched, ⟨src_eq, live_eq, req_eq, fillResp_eq, cmds_eq⟩, busy_eq⟩ := h
  cases i <;> exact ⟨fsm_eq, resp_eq, untouched, ⟨src_eq, live_eq, req_eq, fillResp_eq, cmds_eq⟩, busy_eq⟩

/-- An error says nothing of where the cursor stood before the call (R191). -/
theorem CallFailed.of_cursor {e : ErrorKind} {s t : State} {p : Nat} (h : CallFailed e { s with inPos := p } t) :
    CallFailed e s t := by
  obtain ⟨fsm_eq, resp_eq, untouched, ⟨src_eq, live_eq, req_eq, fillResp_eq, cmds_eq⟩, busy_eq⟩ := h
  exact ⟨fsm_eq, resp_eq, untouched, ⟨src_eq, live_eq, req_eq, fillResp_eq, cmds_eq⟩, busy_eq⟩

/-- `CallDone` says nothing of where the cursor stood before the call. -/
theorem CallDone.of_cursor {owed : Nat} {s t : State} {out : List Byte} {p : Nat}
    (h : CallDone owed { s with inPos := p } t out) : CallDone owed s t out := by
  obtain ⟨count, owes, fsm_eq, resp_eq, ⟨written, untouched, wp_eq, hist_eq, outCount_eq⟩, ⟨bytes, kept⟩,
    ⟨src_eq, live_eq, req_eq, fillResp_eq, cmds_eq⟩, busy_eq, tick_eq⟩ := h
  exact ⟨count, owes, fsm_eq, resp_eq, ⟨written, untouched, wp_eq, hist_eq, outCount_eq⟩, ⟨bytes, kept⟩,
    ⟨src_eq, live_eq, req_eq, fillResp_eq, cmds_eq⟩, busy_eq, tick_eq⟩

/-- The wait of a LIT just adopted is a wait from the state before the adoption, which does not write `coff` (R25). -/
theorem CallWaits.of_adopted_lit {size owed : Nat} {fsm : Fsm} {ctype : CType} {out : List Byte} {s t : State}
    (h : CallWaits fsm ctype owed out (adopted (.lit size) s) t) : CallWaits fsm ctype owed out s t := by
  obtain ⟨fsm_eq, ctype_eq, owes, coff_eq, win_eq, wp_eq, hist_eq, outCount_eq, cursor, ⟨bytes, untouched⟩,
    ⟨src_eq, live_eq, req_eq, fillResp_eq, cmds_eq⟩, busy_eq, resp_eq, tick_eq⟩ := h
  exact ⟨fsm_eq, ctype_eq, owes, coff_eq, win_eq, wp_eq, hist_eq, outCount_eq, cursor, ⟨bytes, untouched⟩,
    ⟨src_eq, live_eq, req_eq, fillResp_eq, cmds_eq⟩, busy_eq, resp_eq, tick_eq⟩

theorem EndsInside.of_adopted_lit {size owed : Nat} {fsm : Fsm} {ctype : CType} {out : List Byte} {s t : State}
    (h : EndsInside fsm ctype owed out (adopted (.lit size) s) t) : EndsInside fsm ctype owed out s t := by
  unfold EndsInside at h ⊢
  rw [adopted_src] at h
  cases hterm : s.src.term <;> rw [hterm] at h
  · exact CallFailed.of_adopted h
  · exact CallFailed.of_adopted h
  · exact CallWaits.of_adopted_lit h

/-- Everything LIT can do: its payload is there and delivered, or it is cut short and the source's terminator decides
(R120). -/
theorem exec_lit_cases {size : Nat} {s : State} (hwf : (Instr.lit size).wellFormed = true) :
    (min size s.req.len ≤ s.remaining.length ∧ ∃ t, exec (.lit size) s = .next t ∧
      CallDone size s t (s.remaining.take (min size s.req.len)) ∧
      t.ctype = .plain ∧ t.coff = s.coff ∧ t.inPos = s.inPos + min size s.req.len) ∨
    (s.remaining.length < min size s.req.len ∧ ∃ t, exec (.lit size) s = .next t ∧
      EndsInside .active .plain size s.remaining s t) := by
  have hcount := produceCount_adopted hwf s
  have howed : (adopted (.lit size) s).csize.toNat = size := adopted_csize_toNat hwf s
  have hcases := continueLit_cases (adopted_fsm (.lit size) s)
  rw [hcount, howed, adopted_remaining] at hcases
  obtain ⟨hthere, t, hnext, hcall, hctype, hcoff, hpos⟩ | ⟨hshort, t, hnext, hinside⟩ := hcases
  · exact .inl ⟨hthere, t, hnext, hcall.of_adopted, hctype, hcoff, hpos⟩
  · exact .inr ⟨hshort, t, hnext, hinside.of_adopted_lit⟩

/-- Everything RUN2 and RUN3 can do: the offset is held, or no byte is asked for, and the bytes are copied; or
INVALID_OFFSET (R121 to R125). -/
theorem exec_run_cases {i : Instr} {d : Nat} {s : State} (hwf : i.wellFormed = true)
    (hi : i = .run2 i.size d ∨ i = .run3 i.size d) :
    ((s.req.len = 0 ∨ d < s.hist.toNat) ∧ ∃ t out, exec i s = .next t ∧ CallDone i.size s t out ∧
      RunBytes (BitVec.ofNat 16 d) s out ∧ t.ctype = i.ctype ∧ t.coff.toNat = d ∧ t.inPos = s.inPos) ∨
    (1 ≤ s.req.len ∧ s.hist.toNat ≤ d ∧ ∃ t, exec i s = .next t ∧ CallFailed .invalidOffset s t) := by
  obtain ⟨hrun, -, -, hcoff⟩ := run_operands_fit hwf hi
  have hoff := adopted_coff_toNat hwf hi s
  have hcount := produceCount_adopted hwf s
  have hsize : 1 ≤ i.size := (decode_ranges (decode_encode hwf [])).1
  obtain ⟨t, hnext, hdone | ⟨hplain, -⟩ | ⟨-, hasked, hout, hfail⟩⟩ := continueChunk_cases (adopted_fsm i s)
  · obtain ⟨out, hcall, hctype, hcoff', ⟨hplain, -⟩ | ⟨-, hbytes, hpos, hheld⟩⟩ := hdone
    · exact absurd ((adopted_ctype i s).symm.trans hplain) hrun
    · rw [adopted_csize_toNat hwf] at hcall
      rw [hcoff] at hbytes
      rw [hcount, hoff, adopted_hist] at hheld
      exact .inl ⟨hheld.imp_left (by omega), t, out, (exec_eq_continue i s).trans hnext, hcall.of_adopted,
        hbytes.of_adopted, hctype.trans (adopted_ctype i s), by rw [hcoff', hoff], hpos.trans (adopted_inPos i s)⟩
  · exact absurd ((adopted_ctype i s).symm.trans hplain) hrun
  · rw [hcount] at hasked
    rw [hoff, adopted_hist] at hout
    exact .inr ⟨by omega, hout, t, (exec_eq_continue i s).trans hnext, hfail.of_adopted⟩

/-- RUN2 and RUN3 whose offset is held, or of which no byte is asked (R121 to R125). -/
theorem exec_run_copies {i : Instr} {d : Nat} {s : State} (hwf : i.wellFormed = true)
    (hi : i = .run2 i.size d ∨ i = .run3 i.size d) (hheld : s.req.len = 0 ∨ d < s.hist.toNat) :
    ∃ t out, exec i s = .next t ∧ CallDone i.size s t out ∧ RunBytes (BitVec.ofNat 16 d) s out ∧
      t.ctype = i.ctype ∧ t.coff.toNat = d ∧ t.inPos = s.inPos := by
  obtain ⟨-, hdone⟩ | ⟨hlen, hout, -⟩ := exec_run_cases (s := s) hwf hi
  · exact hdone
  · omega

/-- RUN2 and RUN3 whose offset is not held, asked for a byte (R182). -/
theorem exec_run_fails {i : Instr} {d : Nat} {s : State} (hwf : i.wellFormed = true)
    (hi : i = .run2 i.size d ∨ i = .run3 i.size d) (hlen : 1 ≤ s.req.len) (hout : s.hist.toNat ≤ d) :
    ∃ t, exec i s = .next t ∧ CallFailed .invalidOffset s t := by
  obtain ⟨hheld, -⟩ | ⟨-, -, hfail⟩ := exec_run_cases (s := s) hwf hi
  · omega
  · exact hfail

/-- A call of no bytes adopts the chunk and answers (OK, 0) (R150). -/
theorem exec_of_len_zero {i : Instr} {s : State} (hwf : i.wellFormed = true) (hlen : s.req.len = 0) :
    exec i s = .next (respond (.ok 0) (adopted i s)) := by
  have hsize : 1 ≤ i.size := (decode_ranges (decode_encode hwf [])).1
  rw [exec_eq_continue, continueChunk_of_len_zero (by rw [adopted_req]; exact hlen),
    finishCall_zero (by rw [adopted_csize_toNat hwf]; exact hsize)]

/-- In NO_CHUNK a PRODUCE that reads a whole header runs its instruction, with the cursor past the header (R141). -/
theorem produce_eq_exec {s : State} (r : Request) {i : Instr} {rest : List Byte} (hfsm : s.fsm = .noChunk)
    (hdec : decode s.remaining = .ok i rest) :
    produce r s = exec i { beginProduce r s with inPos := s.inPos + i.headerLength } := by
  rw [produce_of_decode r hfsm hdec, exec_eq_continue]

/-- A run chunk's instruction, by its size and offset. -/
theorem exists_offset_of_ne_plain {i : Instr} (h : i.ctype ≠ .plain) : ∃ d, i = .run2 i.size d ∨ i = .run3 i.size d := by
  cases i with
  | run2 size off => exact ⟨off, .inl rfl⟩
  | run3 size off => exact ⟨off, .inr rfl⟩
  | lit size => exact absurd rfl h

/-- In NO_CHUNK a PRODUCE whose pull is never answered at header byte 0 waits, and nothing else has changed (R58). -/
theorem produce_of_no_answer {s : State} (r : Request) (hfsm : s.fsm = .noChunk) (hrem : s.remaining = [])
    (hterm : s.src.term = .never) : produce r s = .next (wait (beginProduce r s)) := by
  simp only [produce, hfsm, startChunk, parseNext_nil (s := beginProduce r s) hrem, beginProduce_src, hterm]

end Sys2Proof.Machine

namespace Sys2Proof

open Machine

/-- Settles O16: of LIT's two ends, the one with its payload there. -/
theorem litDeliversItsPayload : Obligations.LitDeliversItsPayload := by
  intro size s hwf hthere
  obtain ⟨-, hdone⟩ | ⟨hshort, -⟩ := exec_lit_cases (s := s) hwf
  · exact hdone
  · omega

/-- Settles O17: of LIT's two ends, the one with its payload cut short. -/
theorem litWithoutItsPayloadEndsAsTheSourceSays : Obligations.LitWithoutItsPayloadEndsAsTheSourceSays := by
  intro size s hwf hshort
  obtain ⟨hthere, -⟩ | ⟨-, hinside⟩ := exec_lit_cases (s := s) hwf
  · omega
  · exact hinside

/-- Settles O18: a run's copy, for RUN2. -/
theorem run2CopiesFromTheHistory : Obligations.Run2CopiesFromTheHistory :=
  fun _ _ _ hwf hheld => exec_run_copies hwf (.inl rfl) hheld

/-- Settles O19: a run's copy, for RUN3. -/
theorem run3CopiesFromTheHistory : Obligations.Run3CopiesFromTheHistory :=
  fun _ _ _ hwf hheld => exec_run_copies hwf (.inr rfl) hheld

/-- Settles O20: a run's failure. -/
theorem runBeyondTheHistoryIsInvalidOffset : Obligations.RunBeyondTheHistoryIsInvalidOffset :=
  fun _ _ _ hwf hi hlen hout => exec_run_fails hwf hi hlen hout

/-- Settles O23: the adoption writes the chunk registers and `fsm` only. -/
theorem aZeroLengthCallOnlyAdoptsTheChunk : Obligations.AZeroLengthCallOnlyAdoptsTheChunk := by
  intro i s hwf hlen
  refine ⟨_, exec_of_len_zero hwf hlen, adopted_fsm i s, adopted_csize_toNat hwf s, adopted_ctype i s, rfl, ?_⟩
  cases i <;> rfl

/-- Settles O24: the step is the PRODUCE, and the PRODUCE is the instruction its header decodes to. -/
theorem stepRunsTheDecodedInstruction : Obligations.StepRunsTheDecodedInstruction := by
  intro s r cs i rest hcmds hlive hbusy hfsm hdec
  rw [step_produce hcmds hlive hbusy, produce_eq_exec (s := { s with cmds := cs }) r hfsm hdec]
  rfl

/-- Settles O25: at header byte 0 each terminator has its own end; inside a header the terminator ends the call. -/
theorem produceWithoutAWholeHeader : Obligations.ProduceWithoutAWholeHeader := by
  intro s r hfsm
  refine ⟨produce_of_clean_end r hfsm, fun hrem hterm => ?_, produce_of_no_answer r hfsm,
    fun hdec => produce_of_header_cut r hfsm (.inl hdec)⟩
  obtain ⟨t, hnext, hinside⟩ := produce_of_header_cut r hfsm (.inr ⟨hrem, by simp [hterm]⟩)
  unfold EndsInside at hinside
  rw [beginProduce_src, hterm] at hinside
  exact ⟨t, hnext, hinside⟩

/-- Settles O26: the two ends of a call with an active Plain chunk. -/
theorem activePlainChunkContinues : Obligations.ActivePlainChunkContinues := by
  intro s r hfsm hplain
  have hcontinue : produce r s = continueLit (beginProduce r s) := by
    rw [produce_of_active r hfsm, continueChunk, beginProduce_ctype, hplain]
  rw [hcontinue]
  obtain ⟨hthere, t, hnext, hcall, hctype, hcoff, hpos⟩ | ⟨hshort, t, hnext, hinside⟩ :=
    continueLit_cases (s := beginProduce r s) hfsm
  · exact ⟨fun _ => ⟨t, hnext, hcall, hctype.trans hplain, hcoff, hpos⟩, fun hlt => absurd hthere (Nat.not_le.mpr hlt)⟩
  · rw [beginProduce_ctype, hplain] at hinside
    exact ⟨fun hle => absurd hle (Nat.not_le.mpr hshort), fun _ => ⟨t, hnext, hinside⟩⟩

/-- Settles O27: the two ends of a call with an active run chunk. -/
theorem activeRunChunkContinues : Obligations.ActiveRunChunkContinues := by
  intro s r hfsm hrun
  rw [produce_of_active r hfsm]
  obtain ⟨t, hnext, ⟨out, hcall, hctype, hcoff, ⟨hplain, -⟩ | ⟨-, hbytes, hpos, hheld⟩⟩ | ⟨hplain, -⟩ |
    ⟨-, hasked, hout, hfail⟩⟩ := continueChunk_cases (s := beginProduce r s) hfsm
  · exact absurd hplain hrun
  · refine ⟨fun _ => ⟨t, out, hnext, hcall, hbytes, hctype, hcoff, hpos⟩, fun hout howed hlen => ?_⟩
    obtain hzero | hlt := hheld
    · rw [produceCount, beginProduce_csize, beginProduce_req] at hzero
      omega
    · exact absurd hout (Nat.not_le.mpr hlt)
  · exact absurd hplain hrun
  · exact ⟨fun hlt => absurd hout (Nat.not_le.mpr hlt), fun _ _ _ => ⟨t, hnext, hfail⟩⟩

/-- Settles O32: right after CREATE no offset is held. -/
theorem firstChunkMustBeLiteral : Obligations.FirstChunkMustBeLiteral := by
  intro s src r i rest hdec hrun hlen
  obtain ⟨d, hi⟩ := exists_offset_of_ne_plain hrun
  rw [produce_eq_exec (s := create src s) r rfl hdec]
  obtain ⟨t, hnext, hfail⟩ := exec_run_fails
    (s := { beginProduce r (create src s) with inPos := (create src s).inPos + i.headerLength })
    (decode_wellFormed hdec) hi hlen (Nat.zero_le d)
  exact ⟨t, hnext, hfail.of_cursor⟩

end Sys2Proof

/-! How every PRODUCE ends, said once (R141): the count (R143), the table of transitions (R151), the cursor (R22), errors
(R190) and what FILL passes on (R171). -/

namespace Sys2Proof.Machine

/-- The chunk a PRODUCE works on: what it owes, its type, and how many header bytes this call pulls for it (R144, R148). -/
inductive ChunkAt (s : State) : Nat → CType → Nat → Prop
  | found (hfsm : s.fsm = .active) : ChunkAt s s.csize.toNat s.ctype 0
  | parsed (i : Instr) (rest : List Byte) (hfsm : s.fsm = .noChunk) (hdec : decode s.remaining = .ok i rest) :
      ChunkAt s i.size i.ctype i.headerLength

/-- How a PRODUCE ends: at the end of the stream; with an error; in the wait, the cursor past every byte there; or done with
its chunk, the cursor past the header and the payload bytes it has pulled. -/
inductive ProduceEnds (r : Request) (s t : State) : Prop
  | atEnd (hend : s.atEnd) (ht : t = { s with req := r, resp := some (.ok 0), fsm := .eof })
  | failed (e : ErrorKind) (hfsm : s.fsm = .noChunk ∨ s.fsm = .active) (he : e ≠ .bufferTooSmall)
      (hfail : CallFailed e (beginProduce r s) t)
  | waits (hfsm : t.fsm ≠ .poisoned) (hresp : t.resp = none) (hbusy : t.busy = true)
      (hpos : t.inPos = s.inPos + s.remaining.length)
  | done (owed : Nat) (ctype : CType) (header : Nat) (out : List Byte) (hchunk : ChunkAt s owed ctype header)
      (hcall : CallDone owed (beginProduce r s) t out) (hctype : t.ctype = ctype)
      (hpos : t.inPos = s.inPos + header + if ctype = .plain then out.length else 0)

/-- The call that an active chunk makes ends as a PRODUCE does, the header that led to it pulled by the same call. -/
theorem produceEnds_of_continueChunk {r : Request} {s u t : State} {header : Nat} (hu : u.fsm = .active)
    (hfsm : s.fsm = .noChunk ∨ s.fsm = .active) (hchunk : ChunkAt s u.csize.toNat u.ctype header)
    (hpos : u.inPos = s.inPos + header) (hrem : header + u.remaining.length = s.remaining.length) (hresp : u.resp = none)
    (hdone : ∀ {owed out}, CallDone owed u t out → CallDone owed (beginProduce r s) t out)
    (hfailed : ∀ {e}, CallFailed e u t → CallFailed e (beginProduce r s) t) (hnext : continueChunk u = .next t) :
    ProduceEnds r s t := by
  obtain ⟨t', hnext', hends⟩ := continueChunk_cases hu
  obtain rfl : t' = t := by simpa [hnext'] using hnext
  obtain ⟨out, hcall, hctype, -, hcases⟩ | ⟨-, -, hinside⟩ | ⟨-, -, -, hfail⟩ := hends
  · refine .done _ _ header out hchunk (hdone hcall) hctype ?_
    have hcount : out.length = produceCount u := hcall.count
    obtain ⟨hplain, -, -, hmoved⟩ | ⟨hrun, -, hkept, -⟩ := hcases
    · rw [if_pos hplain, hmoved, hpos, hcount]
    · rw [if_neg hrun, hkept, hpos, Nat.add_zero]
  · obtain ⟨e, he, hfail⟩ | hwait := hinside.failed_or_waits
    · exact .failed e hfsm he (hfailed hfail)
    · refine .waits (by simp [hwait.fsm_eq]) (hwait.resp_eq.trans hresp) hwait.busy_eq ?_
      rw [hwait.cursor, hpos, Nat.add_assoc, hrem]
  · exact .failed .invalidOffset hfsm nofun (hfailed hfail)

/-- How every PRODUCE ends (R141). -/
theorem produce_ends {r : Request} {s t : State} (hnext : produce r s = .next t) : ProduceEnds r s t := by
  obtain ⟨hfsm, he⟩ | ⟨-, he⟩ | ⟨hfsm, he⟩ | ⟨hfsm, hnil, hterm, he⟩ | ⟨hfsm, -, ⟨e, hkind, he⟩ | ⟨-, he⟩⟩ |
    ⟨hfsm, i, rest, hdec, he⟩ := produce_cases r s <;> rw [he] at hnext
  · cases hnext
    exact .atEnd (.inl hfsm) (by rw [← hfsm])
  · cases hnext
  · exact produceEnds_of_continueChunk (u := beginProduce r s) hfsm (.inr hfsm) (.found hfsm) rfl (Nat.zero_add _) rfl id id
      hnext
  · cases hnext
    exact .atEnd (.inr ⟨hfsm, hnil, hterm⟩) rfl
  · cases hnext
    refine .failed e (.inl hfsm) ?_ (callFailed_of_written (out := []) e _ s.buf ⟨nofun, fun _ _ => rfl⟩ (Nat.zero_le _))
    obtain ⟨rfl, -⟩ | ⟨rfl, -⟩ := hkind <;> exact nofun
  · cases hnext
    exact .waits (by simp [hfsm]) rfl rfl rfl
  · have hheader := decode_length hdec
    refine produceEnds_of_continueChunk (adopted_fsm i _) (.inl hfsm) ?_ (adopted_inPos i _) ?_ (adopted_resp i _) ?_ ?_ hnext
    · rw [adopted_csize_toNat_of_decode hdec, adopted_ctype]
      exact .parsed i rest hfsm hdec
    · rw [adopted_remaining]
      refine (congrArg (i.headerLength + ·.length) (remaining_advance (beginProduce r s) i.headerLength)).trans ?_
      rw [List.length_drop]
      exact Nat.add_sub_cancel' hheader
    · exact fun hcall => hcall.of_adopted.of_cursor
    · exact fun hfail => hfail.of_adopted.of_cursor

/-- In a run the chunk a PRODUCE works on owes no more than its type's largest size (R24). -/
theorem ChunkAt.le_maxSize {s : State} {owed header : Nat} {ctype : CType} (h : ChunkAt s owed ctype header)
    (hsize : s.fsm = .active → s.csize.toNat ≤ maxSize s.ctype) : owed ≤ maxSize ctype := by
  cases h with
  | found hfsm => exact hsize hfsm
  | parsed i rest _ hdec => exact (decode_ranges hdec).2.1

/-- An error a PRODUCE answers is an error entered (R190). -/
theorem callFailed_of_produce_error {r : Request} {s t : State} {e : ErrorKind} (hnext : produce r s = .next t)
    (hresp : t.resp = some (.error e)) : CallFailed e (beginProduce r s) t := by
  obtain ⟨-, rfl⟩ | ⟨e', -, -, hfail⟩ | ⟨-, hnone, -⟩ | ⟨_, _, _, out, -, hcall, -⟩ := produce_ends hnext
  · cases hresp
  · obtain rfl : e' = e := by simpa [hfail.resp_eq] using hresp
    exact hfail
  · simp [hnone] at hresp
  · simp [hcall.resp_eq] at hresp

/-- POISONED is entered with an error only (R190). -/
theorem error_of_produce_poisoned {r : Request} {s t : State} (hnext : produce r s = .next t) (hfsm : t.fsm = .poisoned) :
    ∃ e, t.resp = some (.error e) := by
  obtain ⟨-, rfl⟩ | ⟨e, -, -, hfail⟩ | ⟨hok, -⟩ | ⟨owed, _, _, out, -, hcall, -⟩ := produce_ends hnext
  · cases hfsm
  · exact ⟨e, hfail.resp_eq⟩
  · exact absurd hfsm hok
  · rw [hcall.fsm_eq] at hfsm
    split at hfsm <;> cases hfsm

/-- A PRODUCE that does not fail never moves the cursor back (R22). -/
theorem inPos_le_of_produce {r : Request} {s t : State} (hnext : produce r s = .next t) (hok : t.fsm ≠ .poisoned) :
    s.inPos ≤ t.inPos := by
  obtain ⟨-, rfl⟩ | ⟨e, -, -, hfail⟩ | ⟨-, -, -, hpos⟩ | ⟨_, _, _, out, -, -, -, hpos⟩ := produce_ends hnext
  · exact le_rfl
  · exact absurd hfail.fsm_eq hok
  · omega
  · omega

/-- FILL pulls nothing of its own. -/
@[simp] theorem fillAfter_inPos (r : Request) (filled : Nat) (t : State) : (fillAfter r filled t).inPos = t.inPos := by
  unfold fillAfter
  split <;> rfl

/-- A turn of FILL moves the cursor by its PRODUCE only (R171). -/
theorem inPos_le_of_fillTurn {r : Request} {filled : Nat} {s t : State} (hnext : fillTurn r filled s = .next t)
    (hok : t.fsm ≠ .poisoned) : s.inPos ≤ t.inPos := by
  by_cases hroom : filled < r.len
  · obtain ⟨u, hu, rfl⟩ := fillTurn_cases hroom hnext
    rw [fillAfter_fsm] at hok
    rw [fillAfter_inPos]
    exact inPos_le_of_produce (s := { s with fillResp := none }) hu hok
  · rw [fillTurn_of_full hroom] at hnext
    cases hnext
    exact le_rfl

/-- A chunk whose header and bytes one call produces moves the cursor by header and payload (R80, R155). -/
theorem inPos_of_whole_chunk {r : Request} {s t : State} {n : Nat} {i : Instr} {rest : List Byte}
    (hnext : produce r s = .next t) (hresp : t.resp = some (.ok n)) (hfsm : s.fsm = .noChunk)
    (hdec : decode s.remaining = .ok i rest) (hlen : i.size ≤ r.len) :
    t.inPos = s.inPos + i.headerLength + i.payloadLength := by
  obtain ⟨hf | ⟨-, hnil, -⟩, -⟩ | ⟨e, -, -, hfail⟩ | ⟨-, hnone, -⟩ | ⟨_, _, _, out, hchunk, hcall, -, hpos⟩ :=
    produce_ends hnext
  · simp [hfsm] at hf
  · simp [hnil, decode] at hdec
  · simp [hfail.resp_eq] at hresp
  · simp [hnone] at hresp
  · cases hchunk with
    | found hf => simp [hfsm] at hf
    | parsed j rest' _ hdec' =>
      obtain ⟨rfl, -⟩ : j = i ∧ rest' = rest := by simpa [hdec'] using hdec
      have hcount : out.length = j.size := hcall.count.trans (Nat.min_eq_left hlen)
      rw [hpos, hcount]
      cases j <;> rfl

theorem fillAfter_of_error {r : Request} {filled : Nat} {u : State} {e : ErrorKind} (h : u.resp = some (.error e)) :
    fillAfter r filled u = { u with fillResp := some (.error e), buf := u.buf.forget r.base r.len } := by
  simp only [fillAfter, h]

end Sys2Proof.Machine

namespace Sys2Proof

open Machine

/-- Settles O33: the count is the smaller of the request and what the chunk owes, at most its type's largest size. -/
theorem countNeverExceedsRequestOrChunk : Obligations.CountNeverExceedsRequestOrChunk := by
  intro s t r n hinv hlive hnext hresp
  obtain ⟨-, rfl⟩ | ⟨e, -, -, hfail⟩ | ⟨-, hnone, -⟩ | ⟨owed, ctype, _, out, hchunk, hcall, hctype, -⟩ := produce_ends hnext
  · cases hresp
    exact ⟨Nat.zero_le _, Nat.zero_le _, fun _ => Nat.zero_le _, fun _ => Nat.zero_le _⟩
  · simp [hfail.resp_eq] at hresp
  · simp [hnone] at hresp
  · obtain rfl : out.length = n := by simpa [hcall.resp_eq] using hresp
    have hmax : owed ≤ maxSize ctype := hchunk.le_maxSize fun hfsm =>
      ((hinv.run hlive (by simp [hfsm])).active_size hfsm).2
    have hcount : out.length = min owed r.len := hcall.count
    have hle : out.length ≤ maxSize t.ctype := by
      rw [hctype]
      omega
    have hlargest : maxSize t.ctype ≤ 128 := by cases t.ctype <;> decide
    exact ⟨by omega, hle.trans hlargest, fun hc => by rw [hc] at hle; exact hle, fun hc => by rw [hc] at hle; exact hle⟩

/-- Settles O35: each way a PRODUCE ends, the wait excluded, is a row of the table. -/
theorem produceMakesOnlyTheTablesTransitions : Obligations.ProduceMakesOnlyTheTablesTransitions := by
  intro s t r _ hnext hidle
  obtain ⟨hfsm | ⟨hfsm, hnil, hterm⟩, rfl⟩ | ⟨e, hfsm, he, hfail⟩ | ⟨-, -, hbusy, -⟩ |
    ⟨owed, _, _, out, hchunk, hcall, -, -⟩ := produce_ends hnext
  · exact .inl ⟨hfsm, rfl, rfl⟩
  · exact .inr (.inl ⟨hfsm, hnil, hterm, rfl, rfl⟩)
  · exact .inr (.inr (.inl ⟨hfsm, hfail.fsm_eq, e, hfail.resp_eq, he⟩))
  · simp [hidle] at hbusy
  · have hcount : out.length = min owed r.len := hcall.count
    refine .inr (.inr (.inr ⟨owed, ?_, ?_⟩))
    · cases hchunk with
      | found hfsm => exact .inl ⟨hfsm, rfl⟩
      | parsed i rest hfsm hdec => exact .inr ⟨hfsm, i, rest, hdec, rfl⟩
    · rw [← hcount]
      exact ⟨hcall.resp_eq, hcall.owes, hcall.fsm_eq⟩

/-- Settles O37: for a PRODUCE by how it ends; of the steps that are not one, only a turn of FILL reaches the cursor, by its
PRODUCE. -/
theorem cursorMovesForwardByHeaderAndPayload : Obligations.CursorMovesForwardByHeaderAndPayload := by
  refine ⟨fun s t r hnext => ⟨fun n hresp => ⟨inPos_le_of_produce hnext fun hfsm => ?_,
    fun i rest => inPos_of_whole_chunk hnext hresp⟩, fun hidle hbusy => ?_⟩, fun s t hstep hok hcreate hdrop => ?_⟩
  · obtain ⟨e, he⟩ := error_of_produce_poisoned hnext hfsm
    simp [hresp] at he
  · obtain ⟨-, rfl⟩ | ⟨e, -, -, hfail⟩ | ⟨-, -, -, hpos⟩ | ⟨_, _, _, out, -, hcall, -⟩ := produce_ends hnext
    · simp [hidle] at hbusy
    · simp [hfail.busy_eq, hidle] at hbusy
    · exact ⟨by omega, hpos⟩
    · simp [hcall.busy_eq, hidle] at hbusy
  · obtain ⟨-, rfl⟩ | ⟨c, cs, hcmds, hrun⟩ := step_cases hstep
    · exact le_rfl
    · obtain ⟨src, rfl, -⟩ | ⟨r, -, -, -, hproduce⟩ | ⟨rfl, -⟩ | ⟨r, filled, -, -, -, hfill⟩ := runCommand_cases hrun
      · exact absurd hcmds (hcreate src cs)
      · exact inPos_le_of_produce (s := { s with cmds := cs }) hproduce hok
      · exact absurd hcmds (hdrop cs)
      · exact inPos_le_of_fillTurn (s := { s with cmds := cs }) hfill hok

/-- Settles O39: an error answered is an error entered, and POISONED has no other way in. -/
theorem everyErrorPoisonsTheBlock : Obligations.EveryErrorPoisonsTheBlock :=
  fun _ _ _ hnext => ⟨fun _ => callFailed_of_produce_error hnext, error_of_produce_poisoned hnext⟩

/-- Settles O48: FILL's PRODUCE has entered the error, within the rest of FILL's buffer. -/
theorem fillPassesErrorsOnUnchanged : Obligations.FillPassesErrorsOnUnchanged := by
  intro s t r filled e hroom hturn hresp
  obtain ⟨u, hu, rfl⟩ := fillTurn_cases hroom hturn
  rw [fillAfter_resp] at hresp
  have hfail := callFailed_of_produce_error hu hresp
  rw [fillAfter_of_error hresp]
  refine ⟨rfl, hfail.fsm_eq, hfail.interface.cmds_eq, fun a ha => ?_⟩
  rw [Memory.read_forget, if_neg (by omega)]
  exact hfail.untouched a (by simp only [beginProduce_req]; omega)

end Sys2Proof

/-! The block never reads the host's memory (20_memory.md sections 4 and 9): each part of a PRODUCE does the same whatever
that memory holds. -/

namespace Sys2Proof.Machine

/-- The same end of a part of a command, with `m` as the host's memory. -/
def Flow.withBuf {α : Type} (m : Memory) : Flow α → Flow α
  | .done a s => .done a { s with buf := m }
  | .raised e s => .raised e { s with buf := m }
  | .blocked s => .blocked { s with buf := m }

/-- The same outcome of a command, with `m` as the host's memory. -/
def outcomeWithBuf (m : Memory) : Host.Outcome State Fault Refusal → Host.Outcome State Fault Refusal
  | .next s => .next { s with buf := m }
  | .fault e => .fault e
  | .refused e => .refused e

theorem pull_withBuf (s : State) (m : Memory) : pull { s with buf := m } = (pull s).withBuf m := by
  obtain ⟨v, rest, hr, he⟩ | ⟨hr, ht, he⟩ | ⟨hr, ht, he⟩ | ⟨hr, ht, he⟩ := pull_cases s <;> rw [he]
  · exact pull_byte (s := { s with buf := m }) hr
  all_goals
    rw [pull_nil (s := { s with buf := m }) hr]
    simp only [ht, Flow.withBuf]

theorem readPayload_withBuf (n i : Nat) (s : State) (m : Memory) :
    ∃ m', readPayload n i { s with buf := m } = (readPayload n i s).withBuf m' := by
  induction n generalizing i s m with
  | zero => exact ⟨m, rfl⟩
  | succ n ih =>
    rw [readPayload, readPayload, pull_withBuf]
    cases pull s with
    | done v u =>
      obtain ⟨m', he⟩ := ih (i + 1) (bufWrite i v u) (m.write (u.req.base + i) v)
      have he' : readPayload n (i + 1) (bufWrite i v { u with buf := m }) =
          (readPayload n (i + 1) (bufWrite i v u)).withBuf m' := he
      refine ⟨m', ?_⟩
      rw [Flow.withBuf, andThen_done, andThen_done, he']
      cases readPayload n (i + 1) (bufWrite i v u) <;> rfl
    | raised e u => exact ⟨m, rfl⟩
    | blocked u => exact ⟨m, rfl⟩

theorem winExtend_withBuf (vs : List Byte) (s : State) (m : Memory) :
    winExtend vs { s with buf := m } = { winExtend vs s with buf := m } := by
  induction vs generalizing s with
  | nil => rfl
  | cons v vs ih => exact ih (winPush v s)

theorem plainStep_withBuf (n : Nat) (s : State) (m : Memory) :
    ∃ m', plainStep n { s with buf := m } = (plainStep n s).withBuf m' := by
  obtain ⟨m', he⟩ := readPayload_withBuf n 0 s m
  refine ⟨m', ?_⟩
  rw [plainStep, plainStep, he]
  cases readPayload n 0 s with
  | done vs u => exact congrArg (Flow.done ()) (winExtend_withBuf vs u m')
  | raised e u => rfl
  | blocked u => rfl

theorem runStep_withBuf (n i : Nat) (s : State) (m : Memory) :
    ∃ m', runStep n i { s with buf := m } = (runStep n i s).withBuf m' := by
  induction n generalizing i s m with
  | zero => exact ⟨m, rfl⟩
  | succ n ih =>
    have hget : winGet s.coff { s with buf := m } = winGet s.coff s := rfl
    rw [runStep, runStep, hget]
    cases winGet s.coff s with
    | none => exact ⟨m, rfl⟩
    | some v => exact ih (i + 1) (winPush v (bufWrite i v s)) (m.write (s.req.base + i) v)

theorem conclude_withBuf (n : Nat) (x : Flow Unit) (m : Memory) :
    ∃ m', conclude n (x.withBuf m) = outcomeWithBuf m' (conclude n x) := by
  cases x with
  | done a s => exact ⟨m, rfl⟩
  | raised e s => exact ⟨m.forget s.req.base s.req.len, rfl⟩
  | blocked s => exact ⟨m, rfl⟩

theorem continueChunk_of_plain {s : State} (h : s.ctype = .plain) :
    continueChunk s = conclude (produceCount s) (plainStep (produceCount s) s) := by
  rw [continueChunk, h]
  rfl

theorem continueChunk_of_run {s : State} (h : s.ctype ≠ .plain) :
    continueChunk s = conclude (produceCount s) (runStep (produceCount s) 0 s) := by
  cases hc : s.ctype with
  | run2 | run3 => rw [continueChunk, hc]; rfl
  | plain => exact absurd hc h

/-- A call with an active chunk does the same whatever the host's memory holds. -/
theorem continueChunk_withBuf (s : State) (m : Memory) :
    ∃ m', continueChunk { s with buf := m } = outcomeWithBuf m' (continueChunk s) := by
  have hcount : produceCount { s with buf := m } = produceCount s := rfl
  by_cases hc : s.ctype = .plain
  · obtain ⟨m', he⟩ := plainStep_withBuf (produceCount s) s m
    rw [continueChunk_of_plain hc, continueChunk_of_plain (s := { s with buf := m }) hc, hcount, he]
    exact conclude_withBuf _ _ m'
  · obtain ⟨m', he⟩ := runStep_withBuf (produceCount s) 0 s m
    rw [continueChunk_of_run hc, continueChunk_of_run (s := { s with buf := m }) hc, hcount, he]
    exact conclude_withBuf _ _ m'

theorem parseNext_withBuf (s : State) (m : Memory) : parseNext { s with buf := m } = (parseNext s).withBuf m := by
  obtain hnil | hdec | ⟨i, rest, hdec⟩ := decode_kinds s.remaining
  · rw [parseNext_nil hnil, parseNext_nil (s := { s with buf := m }) hnil]
    cases s.src.term <;> rfl
  · rw [parseNext_truncated hdec, parseNext_truncated (s := { s with buf := m }) hdec]
    cases s.src.term <;> rfl
  · rw [parseNext_ok hdec, parseNext_ok (s := { s with buf := m }) hdec]
    rfl

theorem exec_withBuf (i : Instr) (s : State) (m : Memory) :
    ∃ m', exec i { s with buf := m } = outcomeWithBuf m' (exec i s) := by
  have hadopted : adopted i { s with buf := m } = { adopted i s with buf := m } := by cases i <;> rfl
  rw [exec_eq_continue, exec_eq_continue, hadopted]
  exact continueChunk_withBuf (adopted i s) m

theorem startChunk_withBuf (s : State) (m : Memory) :
    ∃ m', startChunk { s with buf := m } = outcomeWithBuf m' (startChunk s) := by
  rw [startChunk, startChunk, parseNext_withBuf]
  cases parseNext s with
  | done parsed u =>
    cases parsed with
    | none => exact ⟨m, rfl⟩
    | some i => exact exec_withBuf i u m
  | raised e u => exact ⟨m.forget u.req.base u.req.len, rfl⟩
  | blocked u => exact ⟨m, rfl⟩

/-- In NO_CHUNK a PRODUCE parses (R141). -/
theorem produce_of_noChunk {s : State} (r : Request) (h : s.fsm = .noChunk) :
    produce r s = startChunk (beginProduce r s) := by
  simp only [produce, h]

/-- A PRODUCE does the same whatever the host's memory holds. -/
theorem produce_withBuf (r : Request) (s : State) (m : Memory) :
    ∃ m', produce r { s with buf := m } = outcomeWithBuf m' (produce r s) := by
  obtain ⟨f, hfsm⟩ : ∃ f, s.fsm = f := ⟨_, rfl⟩
  cases f with
  | eof =>
    rw [produce_of_eof r hfsm, produce_of_eof (s := { s with buf := m }) r hfsm]
    exact ⟨m, rfl⟩
  | poisoned =>
    rw [produce_of_poisoned r hfsm, produce_of_poisoned (s := { s with buf := m }) r hfsm]
    exact ⟨m, rfl⟩
  | active =>
    rw [produce_of_active r hfsm, produce_of_active (s := { s with buf := m }) r hfsm]
    exact continueChunk_withBuf (beginProduce r s) m
  | noChunk =>
    rw [produce_of_noChunk r hfsm, produce_of_noChunk (s := { s with buf := m }) r hfsm]
    exact startChunk_withBuf (beginProduce r s) m

/-- Two calls that have pushed as many bytes, from the same pointer to the same window, have pushed the same bytes. -/
theorem Pushed.out_eq {s s' t t' : State} {out out' : List Byte} (h : Pushed s t out) (h' : Pushed s' t' out')
    (hwp : s'.wp = s.wp) (hwin : t'.win = t.win) (hlen : out'.length = out.length) : out' = out := by
  refine List.ext_getElem hlen fun k hk' hk => ?_
  have hread := h'.written k hk'
  rw [hwp, hwin, h.written k hk, Option.some.injEq] at hread
  exact hread.symm

/-- A call without a count delivers nothing (R32). -/
theorem delivered_eq_nil {t : State} (h : ∀ n, t.resp ≠ some (.ok n)) : delivered t = [] := by
  unfold delivered
  split
  case h_1 n hn => exact absurd hn (h n)
  case h_2 | h_3 => rfl

/-- Two PRODUCEs that differ in the host's memory only deliver the same bytes: those the window then holds. -/
theorem delivered_withBuf {r : Request} {s t : State} {m m' : Memory} (h : produce r s = .next t)
    (h' : produce r { s with buf := m } = .next { t with buf := m' }) : delivered { t with buf := m' } = delivered t := by
  by_cases hok : ∃ n, t.resp = some (.ok n)
  · obtain ⟨n, hresp⟩ := hok
    have hreq : t.req = r := (produce_endsAsCore h).interface.req_eq
    obtain ⟨out, rfl, -, hout⟩ := produce_ok h hresp
    obtain ⟨out', hlen, -, hout'⟩ := produce_ok h' hresp
    have hsame : out' = out := hout.window.out_eq hout'.window rfl rfl hlen
    rw [delivered_of_written hresp hreq hout.buffer,
      delivered_of_written (t := { t with buf := m' }) (hlen ▸ hresp) hreq hout'.buffer, hsame]
  · have hnone : ∀ n, t.resp ≠ some (.ok n) := fun n hn => hok ⟨n, hn⟩
    rw [delivered_eq_nil hnone, delivered_eq_nil (t := { t with buf := m' }) hnone]

end Sys2Proof.Machine

namespace Sys2Proof

open Machine

/-- Settles O38: the other run's state is this one's with another memory, and what both deliver is what both have pushed. -/
theorem hostMemoryNeverInfluencesTheBlock : Obligations.HostMemoryNeverInfluencesTheBlock := by
  intro s t r m hnext
  obtain ⟨m', hnext'⟩ := produce_withBuf r s m
  rw [hnext] at hnext'
  exact ⟨{ t with buf := m' }, hnext', rfl, delivered_withBuf hnext hnext'⟩

end Sys2Proof

/-! The host's commands of 70_reset_and_hazards.md, one equation for each, and the numeric labels of D6. -/

namespace Sys2Proof.Machine

/-- With no command pending a step does nothing (log 1). -/
theorem step_idle {s : State} (h : s.cmds = []) : step s = .next s := by
  simp only [step, h]

/-- A step with a command pending takes the oldest (R63). -/
theorem step_cons {s : State} {c : Command} {cs : List Command} (h : s.cmds = c :: cs) :
    step s = runCommand c { s with cmds := cs } := by
  simp only [step, h]

/-- CREATE is accepted in every state that does not wait (R220). -/
theorem runCommand_create {s : State} (src : Source) (hbusy : s.busy = false) :
    runCommand (.create src) s = .next (create src s) := by
  simp only [runCommand, hbusy, Bool.false_eq_true, if_false]

/-- DROP is accepted in every state of a live block (R200, R221). -/
theorem runCommand_drop {s : State} (hlive : s.live = true) : runCommand .drop s = .next (drop s) := by
  simp only [runCommand, hlive, Bool.not_true, Bool.false_eq_true, if_false]

/-- After DROP no command but CREATE has a meaning (R221). -/
theorem runCommand_of_dropped {s : State} {c : Command} (hlive : s.live = false) (hc : ∀ src, c ≠ .create src) :
    runCommand c s = .refused .noInstance := by
  cases c with
  | create src => exact absurd rfl (hc src)
  | produce | drop | fill => simp only [runCommand, hlive, Bool.not_false, if_true]

/-- While a PRODUCE waits, every command but DROP overlaps it (R198). -/
theorem runCommand_of_waiting {s : State} {c : Command} (hlive : s.live = true) (hbusy : s.busy = true) (hc : c ≠ .drop) :
    runCommand c s = .refused .overlappingCommand := by
  cases c with
  | drop => exact absurd rfl hc
  | create => simp only [runCommand, hbusy, if_true]
  | produce | fill => simp only [runCommand, hlive, hbusy, Bool.not_true, Bool.false_eq_true, if_false, if_true]

/-- With an empty history no distance is held (R53). -/
theorem winGet_of_hist_zero {s : State} (h : s.hist = 0#17) (d : BitVec 16) : winGet d s = none := by
  rw [winGet_eq_none, h]
  exact Nat.zero_le _

end Sys2Proof.Machine

namespace Sys2Proof

open Machine

/-- Settles O42: the values are those CREATE writes. -/
theorem createGivesTheResetValues : Obligations.CreateGivesTheResetValues := by
  intro s src cs hcmds hbusy
  exact ⟨_, (step_cons hcmds).trans (runCommand_create src hbusy), rfl, rfl, rfl, rfl, rfl, rfl, rfl, rfl, rfl, rfl, rfl,
    rfl, winGet_of_hist_zero rfl⟩

/-- Settles O43: the values are those of the reset state. -/
theorem resetHoldsTheGivenValues : Obligations.ResetHoldsTheGivenValues :=
  ⟨rfl, rfl, rfl, rfl, rfl, winGet_of_hist_zero rfl⟩

/-- Settles O44: DROP's own values; after it a command is CREATE or has no meaning. -/
theorem afterDropOnlyCreateHasAMeaning : Obligations.AfterDropOnlyCreateHasAMeaning := by
  refine ⟨fun s cs hcmds hlive =>
      ⟨_, (step_cons hcmds).trans (runCommand_drop hlive), rfl, rfl, rfl, rfl, rfl, rfl, rfl⟩,
    fun s c cs hlive hbusy hcmds => ?_⟩
  rw [step_cons hcmds]
  by_cases hc : ∃ src, c = .create src
  · obtain ⟨src, rfl⟩ := hc
    exact .inl ⟨src, rfl, _, runCommand_create src hbusy, rfl⟩
  · have hother : ∀ src, c ≠ .create src := fun src he => hc ⟨src, he⟩
    exact .inr ⟨hother, runCommand_of_dropped hlive hother⟩

/-- Settles O45: the idle step, DROP, and the overlap. -/
theorem onlyDropEndsTheWait : Obligations.OnlyDropEndsTheWait :=
  fun _ hlive hbusy => ⟨step_idle, fun _ hcmds => ⟨_, (step_cons hcmds).trans (runCommand_drop hlive), rfl, rfl⟩,
    fun _ _ hc hcmds => (step_cons hcmds).trans (runCommand_of_waiting hlive hbusy hc)⟩

/-- Settles O46: the idle step. -/
theorem noCommandNoChange : Obligations.NoCommandNoChange := fun _ => step_idle

/-- Settles O47: a turn of FILL with no room left issues no PRODUCE. -/
theorem fullFillAnswersOkWithoutAProduce : Obligations.FullFillAnswersOkWithoutAProduce := by
  intro s r filled cs hcmds hlive hbusy hfull
  rw [step_fill hcmds hlive hbusy, fillTurn_of_full (Nat.not_lt.mpr hfull)]

/-- Settles O50: the tables are read off; the decoder states are coded and decoded one by one. -/
theorem codesAreTheSpecsLabels : Obligations.CodesAreTheSpecsLabels := by
  refine ⟨rfl, rfl, rfl, rfl, fun f => ?_⟩
  cases f <;> decide

end Sys2Proof

/-! The reference decoding of an encoded stream, line by line (30_encoding.md section 6, 42_produce.md section 3). -/

namespace Sys2Proof.Machine

theorem chunkLine_wellFormed_iff (l : ChunkLine) :
    l.wellFormed = true ↔ l.instr.wellFormed = true ∧ l.payload.length = l.instr.payloadLength := by
  rw [ChunkLine.wellFormed, Bool.and_eq_true, decide_eq_true_iff]

theorem encodeStream_cons (l : ChunkLine) (ls : List ChunkLine) :
    encodeStream (l :: ls) = encodeLine l ++ encodeStream ls := rfl

/-- At a line of a stream the decoding reads the line's instruction and goes on with its payload (R93, R152). -/
theorem refLoop_line {l : ChunkLine} (hwf : l.wellFormed = true) (term : Terminator) {fuel : Nat} (rest o : List Byte)
    (hfuel : (encodeLine l ++ rest).length < fuel) : ∃ fuel', rest.length < fuel' ∧
      refLoop term fuel (encodeLine l ++ rest) o = (refChunk term l.instr (l.payload ++ rest) o).resume term fuel' := by
  obtain ⟨fuel, rfl⟩ := Nat.exists_eq_add_of_le' (Nat.one_le_of_lt hfuel)
  obtain ⟨hinstr, -⟩ := (chunkLine_wellFormed_iff l).mp hwf
  have hdec : decode (encodeLine l ++ rest) = .ok l.instr (l.payload ++ rest) := by
    rw [encodeLine, List.append_assoc]
    exact decode_encode hinstr _
  have hheader : 1 ≤ (encode l.instr).length := by cases l.instr <;> exact Nat.le_add_left 1 _
  refine ⟨fuel, ?_, refLoop_of_decode hdec term fuel o⟩
  simp only [encodeLine, List.length_append] at hfuel
  omega

/-- A LIT line's payload is output whole (R120). -/
theorem refChunk_lit_line {l : ChunkLine} (hwf : l.wellFormed = true) (hplain : l.instr.ctype = .plain)
    (term : Terminator) (rest o : List Byte) :
    refChunk term l.instr (l.payload ++ rest) o = .more rest (o ++ l.payload) := by
  obtain ⟨-, hlen⟩ := (chunkLine_wellFormed_iff l).mp hwf
  cases hi : l.instr with
  | lit size =>
    rw [hi] at hlen
    obtain rfl : l.payload.length = size := hlen
    rw [refChunk, refPlain_whole term (by simp), List.drop_left, List.take_left]
  | run2 | run3 => simp [hi, Instr.ctype] at hplain

/-- A line's chunk adds its size to the output, or its offset reaches before the output. -/
theorem refChunk_line_cases {l : ChunkLine} (hwf : l.wellFormed = true) (term : Terminator) (rest o : List Byte) :
    (∃ o', refChunk term l.instr (l.payload ++ rest) o = .more rest o' ∧ o'.length = o.length + l.instr.size) ∨
    (∃ o', refChunk term l.instr (l.payload ++ rest) o = .stop { ended := .error .invalidOffset, out := o' }) := by
  obtain ⟨-, hlen⟩ := (chunkLine_wellFormed_iff l).mp hwf
  cases hi : l.instr with
  | lit size =>
    have hmore := refChunk_lit_line hwf (by rw [hi]; rfl) term rest o
    rw [hi] at hmore hlen
    exact .inl ⟨_, hmore, by rw [List.length_append, hlen]; rfl⟩
  | run2 size off | run3 size off =>
    rw [hi] at hlen
    rw [List.eq_nil_of_length_eq_zero hlen]
    exact refRun_cases off size rest o

/-- LIT lines decode to their payloads, one after another. -/
theorem refLoop_lit_lines {ls : List ChunkLine} (hwf : ∀ l ∈ ls, l.wellFormed = true ∧ l.instr.ctype = .plain)
    {fuel : Nat} (o : List Byte) (hfuel : (encodeStream ls).length < fuel) :
    refLoop .eos fuel (encodeStream ls) o = { ended := .eof, out := o ++ ls.flatMap ChunkLine.payload } := by
  induction ls generalizing fuel o with
  | nil =>
    obtain ⟨fuel, rfl⟩ := Nat.exists_eq_add_of_le' (Nat.one_le_of_lt hfuel)
    rw [List.flatMap_nil, List.append_nil]
    rfl
  | cons l ls ih =>
    obtain ⟨hl, hplain⟩ := hwf l List.mem_cons_self
    rw [encodeStream_cons] at hfuel ⊢
    obtain ⟨fuel', hfuel', hloop⟩ := refLoop_line hl .eos (encodeStream ls) o hfuel
    rw [hloop, refChunk_lit_line hl hplain, RefStep.resume_more,
      ih (fun l' hl' => hwf l' (List.mem_cons_of_mem l hl')) _ hfuel', List.flatMap_cons, List.append_assoc]

/-- Well-formed lines decode to as many bytes as their sizes sum to, or to INVALID_OFFSET. -/
theorem refLoop_lines {ls : List ChunkLine} (hwf : ∀ l ∈ ls, l.wellFormed = true) {fuel : Nat} (o : List Byte)
    (hfuel : (encodeStream ls).length < fuel) :
    ((refLoop .eos fuel (encodeStream ls) o).ended = .eof ∧
      (refLoop .eos fuel (encodeStream ls) o).out.length = o.length + (ls.map fun l => l.instr.size).sum) ∨
    (refLoop .eos fuel (encodeStream ls) o).ended = .error .invalidOffset := by
  induction ls generalizing fuel o with
  | nil =>
    obtain ⟨fuel, rfl⟩ := Nat.exists_eq_add_of_le' (Nat.one_le_of_lt hfuel)
    exact .inl ⟨rfl, rfl⟩
  | cons l ls ih =>
    have hl := hwf l List.mem_cons_self
    rw [encodeStream_cons] at hfuel ⊢
    obtain ⟨fuel', hfuel', hloop⟩ := refLoop_line hl .eos (encodeStream ls) o hfuel
    rw [hloop]
    obtain ⟨o', hmore, hlen⟩ | ⟨o', hstop⟩ := refChunk_line_cases hl .eos (encodeStream ls) o
    · rw [hmore, RefStep.resume_more, List.map_cons, List.sum_cons, ← Nat.add_assoc, ← hlen]
      exact ih (fun l' hl' => hwf l' (List.mem_cons_of_mem l hl')) o' hfuel'
    · rw [hstop]
      exact .inr rfl

end Sys2Proof.Machine

namespace Sys2Proof

open Machine

/-- Settles O8: by induction on the lines, from an output so far. -/
theorem literalStreamDecodesToItsPayload : Obligations.LiteralStreamDecodesToItsPayload :=
  fun _ hwf => refLoop_lit_lines hwf [] (Nat.lt_succ_self _)

/-- Settles O9: by induction on the lines, from an output so far. -/
theorem encodedStreamOutputLengthIsTheSumOfSizes : Obligations.EncodedStreamOutputLengthIsTheSumOfSizes := by
  intro ls hwf
  have hends := refLoop_lines hwf [] (Nat.lt_succ_self _)
  rw [List.length_nil, Nat.zero_add] at hends
  exact hends

end Sys2Proof
